-- ==== Sys2Proof/Word.lean ====
section
/-! DEFINITION. The fixed-width values of the block, under the names of the rules that give their
widths (10_state.md R10, R20; 30_encoding.md R41, R44). Every value is unsigned (00_scope.md
section 5). A one-bit value is a Bool. -/

namespace Sys2Proof

/-- The per-reader event code `E[r] = {rst, tick, d1_pulse[r], d0_pulse[r]}` (R41). -/
abbrev EventCode := BitVec 4

/-- `bit_count`, `BC_W = 6` bits: the position of the next bit (R11). -/
abbrev Position := BitVec 6

/-- A parity sum, `PS_W = 4` bits (R12). -/
abbrev ParitySum := BitVec 4

/-- `facility_code`, 8 bits (R10). -/
abbrev FacilityCode := BitVec 8

/-- `card_code`, 16 bits (R10). -/
abbrev CardCode := BitVec 16

/-- `full_code`, 24 bits (R10). -/
abbrev FullCode := BitVec 24

/-- A whole frame in the spec's notation, position `p` at bit `25 - p` (R44). The block never holds
one. -/
abbrev FrameWord := BitVec 26

end Sys2Proof
end

