-- ==== Sys2Proof/Config.lean ====
section
/-! DEFINITION. The elaboration parameters (00_scope.md R4) and when a set of them is legal (R5).
No parameter is a free value without a body: the OPEN ones are ARGUMENTS, held in State, and every
statement quantifies over them. `TICK_PERIOD` is not seen by the logic and is a bound variable of
the one statement about real time (assumptions 13 and 18). -/

namespace Sys2Proof

/-- `FRAME_BITS`: the frame length in bits, fixed (R4). -/
def frameBits : Nat := 26

/-- `MAX_BITS`: the saturation cap of `bit_count`, fixed (R4, 90_conflicts.md C8). -/
def maxBits : Nat := 40

/-- The OPEN parameters of one elaborated block (R4). -/
structure Config where
  /-- `N_READERS`, the number of readers. -/
  nReaders : Nat
  /-- `TW`, the width of each timer counter. -/
  tw : Nat
  /-- `TIMEOUT_TICKS`, the frame timeout counted in `tick` strobes. -/
  timeoutTicks : Nat
  deriving DecidableEq, Repr

/-- A parameter set is legal when `N_READERS >= 1`, `TW >= 1` and
`1 <= TIMEOUT_TICKS <= 2^TW - 1` (R5). -/
abbrev Config.Legal (c : Config) : Prop :=
  1 ≤ c.nReaders ∧ 1 ≤ c.tw ∧ 1 ≤ c.timeoutTicks ∧ c.timeoutTicks ≤ 2 ^ c.tw - 1

/-- The parameter set in which `State.reset` is written out. DESIGN CHOICE (assumption 3, unsafe):
the spec leaves all three OPEN. These are the values of 95_test_vectors.md (`N_READERS = 1`,
`TW = 8` "unless stated otherwise"; `TIMEOUT_TICKS = 2` in its one-reader programs). No statement
rests on them. -/
def Config.reference : Config := ⟨1, 8, 2⟩

end Sys2Proof
end

