-- ==== Sys2Proof/Syntax.lean ====
section
/-! DEFINITION. The instructions: the per-reader events of 30_encoding.md R42, one constructor a row
of spec/opcode_table.json. An event's operand is the reader id (R43); the bit value is in the choice
between `bit0` and `bit1`. -/

namespace Sys2Proof

/-- One event (R42). The expiry of a timer is no event: it happens inside a `tick` (R84). -/
inductive Instr where
  /-- `RESET`, shared by every reader (R130). -/
  | reset
  /-- `NOP` (R91). -/
  | nop (reader : Nat)
  /-- `TICK` (R83). -/
  | tick (reader : Nat)
  /-- `BIT0`: an edge on line 0, bit value 0 (R92). -/
  | bit0 (reader : Nat)
  /-- `BIT1`: an edge on line 1, bit value 1 (R93). -/
  | bit1 (reader : Nat)
  /-- `COLLIDE`: edges on both lines in one step, illegal (R96). -/
  | collide (reader : Nat)
  deriving DecidableEq, Repr

/-- The reader an event names, if it names one (R43; RESET names none, R130). -/
def Instr.reader? : Instr → Option Nat
  | .reset => none
  | .nop r => some r
  | .tick r => some r
  | .bit0 r => some r
  | .bit1 r => some r
  | .collide r => some r

/-- The event of a bit of value `v` on reader `r`: `BIT0` carries 0 and `BIT1` carries 1 (R43). -/
def Instr.ofBit (r : Nat) (v : Bool) : Instr := if v then .bit1 r else .bit0 r

/-- Whether the event is a NOP. -/
def Instr.isNop : Instr → Bool
  | .nop _ => true
  | .reset => false
  | .tick _ => false
  | .bit0 _ => false
  | .bit1 _ => false
  | .collide _ => false

/-- Whether the event is a TICK. -/
def Instr.isTick : Instr → Bool
  | .tick _ => true
  | .reset => false
  | .nop _ => false
  | .bit0 _ => false
  | .bit1 _ => false
  | .collide _ => false

/-- Whether the event is a bit. -/
def Instr.isBit : Instr → Bool
  | .bit0 _ => true
  | .bit1 _ => true
  | .reset => false
  | .nop _ => false
  | .tick _ => false
  | .collide _ => false

end Sys2Proof
end

