-- ==== Sys2Proof/WellFormed.lean ====
section
/-! DEFINITION. When an event, and the list of the events of one step, can arise in a block of `n`
readers: reader ids are `0..n-1` (20_memory.md R31), each reader takes exactly one event a step
(43_event_router.md R90), `rst` and `tick` are shared by all readers (30_encoding.md R41). -/

namespace Sys2Proof

/-- An event of a block of `n` readers names a reader of that block, if it names one (R31). -/
def Instr.wellFormed (n : Nat) (i : Instr) : Bool :=
  match i.reader? with
  | some r => decide (r < n)
  | none => true

/-- The events of one step of a block of `n` readers. Either one RESET, which is every reader's
event (R42, R130); or one event for each reader in the order of the readers, with no reader at
NOP while another is at TICK, because `tick` is one shared port (R41, R42). -/
def wellFormedStep (n : Nat) (es : List Instr) : Bool :=
  es == [.reset] ||
    (es.map Instr.reader? == (List.range n).map some && !(es.any Instr.isTick && es.any Instr.isNop))

end Sys2Proof
end

