-- ==== Sys2Proof/Decode.lean ====
section
/-! DEFINITION. Decoding and encoding. A step word `S` of a block of `n` readers has `2n + 2` bits:
`S = {rst, tick, d1_pulse[n-1], d0_pulse[n-1], ..., d1_pulse[0], d0_pulse[0]}` (30_encoding.md R41).
Each reader's four bits of it are its event code, and each of the sixteen codes is one event (R42).
A word with a bit above `2n + 1` set is no step word of the block and is rejected by name. -/

namespace Sys2Proof

/-- Why a word is rejected. -/
inductive DecodeError where
  /-- A bit is set above bit `2n + 1`, where a block of `n` readers has no input port (R41). -/
  | wordTooWide
  deriving DecidableEq, Repr

/-- What the decoder answers for a step word. -/
inductive Decoded where
  /-- The events of the step, in the order they are run. -/
  | events (es : List Instr)
  /-- The word is rejected. -/
  | rejected (why : DecodeError)
  deriving DecidableEq, Repr

/-- `{rst, tick, d1, d0}` as an event code (R41). -/
def eventBits (rst tick d1 d0 : Bool) : EventCode :=
  BitVec.ofBool rst ++ BitVec.ofBool tick ++ BitVec.ofBool d1 ++ BitVec.ofBool d0

/-- `E[r] = {S[2N+1], S[2N], S[2r+1], S[2r]}` (R41). -/
def eventCode (n S r : Nat) : EventCode :=
  eventBits (S.testBit (2 * n + 1)) (S.testBit (2 * n)) (S.testBit (2 * r + 1)) (S.testBit (2 * r))

/-- The bit value operand, `bit_value = E[r][1]` (R43). -/
def bitValue (e : EventCode) : Bool := e.getLsbD 1

/-- The event of each of the sixteen codes (R42). `rst` comes before everything; a pulse comes
before `tick`; pulses on both lines are COLLIDE. -/
def decodeEvent (r : Nat) (e : EventCode) : Instr :=
  if e.getLsbD 3 then .reset
  else if e.getLsbD 1 && e.getLsbD 0 then .collide r
  else if e.getLsbD 1 || e.getLsbD 0 then .ofBit r (bitValue e)
  else if e.getLsbD 2 then .tick r
  else .nop r

/-- The events of one step word of a block of `n` readers (R90): RESET alone where `rst = 1`, else
one event a reader. -/
def decodeStep (n S : Nat) : Decoded :=
  if S < 2 ^ (2 * n + 2) then
    if S.testBit (2 * n + 1) then .events [.reset]
    else .events ((List.range n).map fun r => decodeEvent r (eventCode n S r))
  else .rejected .wordTooWide

/-- The host's question: the event of a table word. The table gives event codes of four bits, so the
block asked is the one of a single reader, whose step word is its event code (R41 with `N = 1`). -/
def decodeTableWord (nbits w : Nat) : Option Instr :=
  match decodeStep 1 (w % 2 ^ nbits) with
  | .events [i] => some i
  | .events _ => none
  | .rejected _ => none

/-- The `match` column of R42. -/
def Instr.matchBits : Instr → EventCode
  | .reset => 0b1000#4
  | .nop _ => 0b0000#4
  | .tick _ => 0b0100#4
  | .bit0 _ => 0b0001#4
  | .bit1 _ => 0b0010#4
  | .collide _ => 0b0011#4

/-- The `mask` column of R42: the bits of the code the event depends on. -/
def Instr.maskBits : Instr → EventCode
  | .reset => 0b1000#4
  | .nop _ => 0b1111#4
  | .tick _ => 0b1111#4
  | .bit0 _ => 0b1011#4
  | .bit1 _ => 0b1011#4
  | .collide _ => 0b1011#4

/-- The event code of an event, every ignored bit 0. -/
def encodeEvent (i : Instr) : EventCode := i.matchBits

/-- The step word, for `n` readers, in which reader `r` has the code `e` and no other line is
pulsed (R41). -/
def placeCode (n r : Nat) (e : EventCode) : Nat :=
  (e.getLsbD 3).toNat <<< (2 * n + 1) ||| (e.getLsbD 2).toNat <<< (2 * n) |||
    (e.getLsbD 1).toNat <<< (2 * r + 1) ||| (e.getLsbD 0).toNat <<< (2 * r)

/-- The part one event has in the step word of a block of `n` readers. RESET pulses no line, so its
place is of no account. -/
def encodeInstr (n : Nat) (i : Instr) : Nat := placeCode n (i.reader?.getD 0) (encodeEvent i)

/-- The step word of the events of one step: what every event puts on the ports, `rst` and `tick`
shared (R41). -/
def encodeStep (n : Nat) (es : List Instr) : Nat :=
  es.foldr (fun i S => encodeInstr n i ||| S) 0

end Sys2Proof
end

