-- ==== Sys2Proof/Machine/State.lean ====
section
/-! DEFINITION. The state of the block (10_state.md), why a step stops, and the state after reset
(70_reset_and_hazards.md R130, 10_state.md R22). -/

namespace Sys2Proof.Machine

/-- The Reader State record `RS[r]` (R10). -/
structure ReaderState where
  /-- `bit_count`: bits accepted in the current frame, the position of the next bit (R11). -/
  bitCount : Position
  /-- `parity0_sum`: running sum of the bits at positions 1-12 (R12). -/
  parity0Sum : ParitySum
  /-- `parity1_sum`: running sum of the bits at positions 13-24 (R12). -/
  parity1Sum : ParitySum
  /-- `facility_code`: left-shift accumulator of positions 1-8 (R14). -/
  facilityCode : FacilityCode
  /-- `card_code`: left-shift accumulator of positions 9-24 (R14). -/
  cardCode : CardCode
  /-- `full_code`: `{facility_code, card_code}`, written at position 25 (R15). -/
  fullCode : FullCode
  /-- `leading_parity_bit`: the bit received at position 0 (R16). -/
  leadingParityBit : Bool
  /-- `trailing_parity_bit`: the bit received at position 25 (R16). -/
  trailingParityBit : Bool
  /-- `code_valid`: the validator's result for the current frame (R17). -/
  codeValid : Bool
  deriving DecidableEq, Repr

/-- The frame timer `TM[r]` (R18). -/
structure FrameTimer where
  /-- `armed`: an expiry is pending. -/
  armed : Bool
  /-- `count`: ticks left before expiry, `TW` bits. A number, since `TW` is a parameter; that it
  stays below `2^TW` is part of the invariant (assumption 9). -/
  count : Nat
  deriving DecidableEq, Repr

/-- The cause of a notification, under the names of R47. `fin_cause` has two bits and all four codes
have a name, so a name is as good as the code (`Cause.code`; assumption 12). -/
inductive Cause where
  /-- `NONE`: completed, both parity checks passed. -/
  | none
  /-- `INCOMPLETE`: the timer expired on an Open frame (R111). -/
  | incomplete
  /-- `PARITY`: completed, at least one parity check failed (R112). -/
  | parity
  /-- `OVERRUN`: a bit arrived at a position above 25 (R113). -/
  | overrun
  deriving DecidableEq, Repr

/-- The output register `OUT[r]` (R20). -/
structure OutputRegister where
  /-- `fin_strobe`: 1 for the one step after a finalization. -/
  finStrobe : Bool
  /-- `fin_ok`: the notification reports a valid result. -/
  finOk : Bool
  /-- `fin_cause`: the cause (R47). -/
  finCause : Cause
  /-- `fin_even_fail`: the even-parity check failed (R48). -/
  finEvenFail : Bool
  /-- `fin_odd_fail`: the odd-parity check failed (R48). -/
  finOddFail : Bool
  /-- `fin_facility`: `facility_code` at finalization. -/
  finFacility : FacilityCode
  /-- `fin_card`: `card_code` at finalization. -/
  finCard : CardCode
  /-- `fin_full`: `full_code` at finalization. -/
  finFull : FullCode
  deriving DecidableEq, Repr

/-- One reader's slice: everything reader `r` has, shared with no other (R33). -/
structure Slice where
  /-- `RS[r]`. -/
  rs : ReaderState
  /-- `TM[r]`. -/
  tm : FrameTimer
  /-- `OUT[r]`. -/
  out : OutputRegister
  deriving DecidableEq, Repr

/-- What the environment drives on the input ports in one cycle (R40). -/
structure StepInput where
  /-- The step word `S` of R41: `rst`, `tick` and every reader's two lines. -/
  word : Nat
  /-- The level of `cfg_trace`. -/
  cfgTrace : Bool
  deriving DecidableEq, Repr

/-- The block, its parameters and the environment's side of its ports. -/
structure State where
  /-- `TW` (R4), constant while the block runs (R133). -/
  tw : Nat
  /-- `TIMEOUT_TICKS` (R4), constant while the block runs (R133). -/
  timeoutTicks : Nat
  /-- The slices of readers `0, 1, ...`; their number is `N_READERS` (R10, R31). -/
  slices : List Slice
  /-- The input ports in the current cycle: what the next step samples (assumption 1). -/
  input : StepInput
  /-- The input ports in the cycles after this one, in order (assumption 1). -/
  schedule : List StepInput
  deriving DecidableEq, Repr

/-- Why the machine stops with a fault: never. "The block has no fault outcome" (00_scope.md R7);
every error class is a notification, after which the machine goes on (R110). -/
inductive Fault where
  deriving DecidableEq, Repr

/-- Why a step has no meaning (R7). -/
inductive Refusal where
  /-- Raised by an arm of exec whose instruction has no meaning yet. Safe. No arm raises it now. -/
  | notModelled (mnemonic : String)
  /-- Raised by COLLIDE: edges on both lines of this reader in one step, to which the spec gives no
  behaviour (R96). The whole step is refused. Safe. -/
  | collide (reader : Nat)
  /-- Raised by an event for a reader the block does not have. No port carries such an event (R31),
  so no step raises it (assumption 5). Safe. -/
  | noSuchReader (reader : Nat)
  /-- Raised by the step when the input word has a bit where the block has no port (R41;
  assumption 6). Safe. -/
  | wordTooWide
  /-- Raised by the step of a machine whose parameter set is illegal: such a machine is not built
  (R5, R116; assumption 4). Safe. -/
  | illegalParameters
  deriving DecidableEq, Repr

/-- The parameter set of the block a state belongs to; `N_READERS` is the number of slices. -/
def State.config (s : State) : Config := ⟨s.slices.length, s.tw, s.timeoutTicks⟩

/-- Every field of a slice at its reset value (R22). -/
def Slice.zero : Slice where
  rs := ⟨0, 0, 0, 0, 0, 0, false, false, false⟩
  tm := ⟨false, 0⟩
  out := ⟨false, false, .none, false, false, 0, 0, 0⟩

/-- The block of parameter set `c` right after reset (R22, R130), the input ports low and nothing
scheduled (assumption 1). -/
def State.resetOf (c : Config) : State where
  tw := c.tw
  timeoutTicks := c.timeoutTicks
  slices := List.replicate c.nReaders Slice.zero
  input := ⟨0, false⟩
  schedule := []

/-- The machine built for a parameter set: none for an illegal one (R5). -/
def State.build? (c : Config) : Option State :=
  if c.Legal then some (State.resetOf c) else none

/-- The machine right after reset, in the reference parameter set (assumption 3). -/
def State.reset : State := State.resetOf Config.reference

end Sys2Proof.Machine
end

