-- ==== Sys2Proof/Machine/Operands.lean ====
section
/-! DEFINITION. The operands of an event: the reader id selects a slice (30_encoding.md R43,
20_memory.md R31); the input ports of a cycle are sampled once a step (20_memory.md R36). -/

namespace Sys2Proof.Machine

/-- The slice of reader `r`, where the block has one. -/
def State.reader? (s : State) (r : Nat) : Option Slice := s.slices[r]?

/-- The state with reader `r`'s slice replaced. -/
def State.setReader (s : State) (r : Nat) (c : Slice) : State :=
  { s with slices := s.slices.set r c }

/-- An event of reader `r` changes reader `r`'s slice and nothing else (R33). An event for a reader
the block does not have is refused (R31; assumption 5). -/
def State.onReader (r : Nat) (f : Slice → Slice) (s : State) : Host.Outcome State Fault Refusal :=
  match s.reader? r with
  | some c => .next (s.setReader r (f c))
  | none => .refused (.noSuchReader r)

/-- The clock edge on the environment's side: the next cycle's levels come onto the ports. With
nothing scheduled every strobe falls and `cfg_trace` keeps its level (assumption 2). -/
def State.advanceInput (s : State) : State :=
  match s.schedule with
  | [] => { s with input := ⟨0, s.input.cfgTrace⟩ }
  | i :: rest => { s with input := i, schedule := rest }

end Sys2Proof.Machine
end

