-- ==== Sys2Proof/Machine/Ops.lean ====
section
/-! DEFINITION. The shared operations on a slice: shifting a bit into a field, counting it, the
saturating increment of `bit_count`, and `finalize`, which is the block's only "entry"
(60_exceptions.md R117): the one operation by which every error class and every result is reported.
The "return" is the reader being Idle afterwards, `bit_count <- 0`. -/

namespace Sys2Proof.Machine

/-- `f <- ((f << 1) | bit_value) mod 2^W` (10_state.md R14). -/
def shiftIn {w : Nat} (f : BitVec w) (v : Bool) : BitVec w :=
  (f <<< 1) ||| (BitVec.ofBool v).setWidth w

/-- `(sum + bit_value) mod 16` (10_state.md R12). -/
def addBit (sum : ParitySum) (v : Bool) : ParitySum :=
  sum + (BitVec.ofBool v).setWidth 4

/-- `min(pos + 1, MAX_BITS)` (40_frame_accumulator.md R67). -/
def bumpCount (pos : Position) : Position :=
  BitVec.ofNat 6 (min (pos.toNat + 1) maxBits)

/-- `OUT[r].fin_strobe <- 0`, the default of every step that is no reset (44_finalization.md R101). -/
def clearStrobe (c : Slice) : Slice := { c with out := { c.out with finStrobe := false } }

/-- `finalize(r, cause, even_fail, odd_fail)` (44_finalization.md R100). It reads the Reader State as
it stands at the call. -/
def finalize (cause : Cause) (evenFail oddFail : Bool) (c : Slice) : Slice :=
  { c with
    out :=
      { finStrobe := true
        finOk := c.rs.codeValid && decide (cause = .none)
        finCause := cause
        finEvenFail := evenFail
        finOddFail := oddFail
        finFacility := c.rs.facilityCode
        finCard := c.rs.cardCode
        finFull := c.rs.fullCode } }

/-- `RS[r].bit_count <- 6'0`: the reader is Idle (10_state.md R19). -/
def toIdle (c : Slice) : Slice := { c with rs := { c.rs with bitCount := 0 } }

end Sys2Proof.Machine
end

