-- ==== Sys2Proof/Machine/ResetEvent.lean ====
section
/-! DEFINITION. The event RESET (70_reset_and_hazards.md R130). -/

namespace Sys2Proof.Machine

/-- Every field of `RS[r]`, `TM[r]` and `OUT[r]` becomes 0 (R130), the cause `NONE` being code 0. -/
def resetReader (_ : Slice) : Slice where
  rs :=
    { bitCount := 0
      parity0Sum := 0
      parity1Sum := 0
      facilityCode := 0
      cardCode := 0
      fullCode := 0
      leadingParityBit := false
      trailingParityBit := false
      codeValid := false }
  tm := { armed := false, count := 0 }
  out :=
    { finStrobe := false
      finOk := false
      finCause := .none
      finEvenFail := false
      finOddFail := false
      finFacility := 0
      finCard := 0
      finFull := 0 }

/-- RESET: every reader (R130). -/
def execReset (s : State) : Host.Outcome State Fault Refusal :=
  .next { s with slices := s.slices.map resetReader }

end Sys2Proof.Machine
end

