-- ==== Sys2Proof/Machine/Flags.lean ====
section
/-! DEFINITION. The Parity Validator (41_parity_validator.md): the two checks and the three bits
`validate` returns. It writes nothing (R72). -/

namespace Sys2Proof.Machine

/-- `even_ok = (parity0_sum[0] == leading_parity_bit)` (R70). -/
def evenOk (rs : ReaderState) : Bool := rs.parity0Sum.getLsbD 0 == rs.leadingParityBit

/-- `odd_ok = (~parity1_sum[0] == trailing_parity_bit)` (R71). -/
def oddOk (rs : ReaderState) : Bool := (!rs.parity1Sum.getLsbD 0) == rs.trailingParityBit

/-- What `validate` returns (R72). -/
structure Verdict where
  /-- Both checks passed. -/
  ok : Bool
  /-- The even-parity check failed. -/
  evenFail : Bool
  /-- The odd-parity check failed. -/
  oddFail : Bool
  deriving DecidableEq, Repr

/-- `validate(r)`: both checks are always evaluated (R72). -/
def validate (rs : ReaderState) : Verdict :=
  ⟨evenOk rs && oddOk rs, !evenOk rs, !oddOk rs⟩

end Sys2Proof.Machine
end

