-- ==== Sys2Proof/Machine/Accumulator.lean ====
section
/-! DEFINITION. The Frame Accumulator and the field shifters (40_frame_accumulator.md): what one
accepted bit does at each position. `ingestBit` is no event; BIT0 and BIT1 call it. -/

namespace Sys2Proof.Machine

/-- Position 0: frame start (R61). Every field but `bit_count` is rewritten. -/
def acceptStart (v : Bool) (c : Slice) : Slice :=
  { c with
    rs :=
      { parity0Sum := 0
        parity1Sum := 0
        facilityCode := 0
        cardCode := 0
        codeValid := false
        fullCode := 0
        trailingParityBit := false
        leadingParityBit := v
        bitCount := 1 } }

/-- Positions 1-8: facility field, even-parity domain (R62). -/
def acceptFacility (v : Bool) (c : Slice) : Slice :=
  { c with
    rs :=
      { c.rs with
        facilityCode := shiftIn c.rs.facilityCode v
        parity0Sum := addBit c.rs.parity0Sum v
        bitCount := bumpCount c.rs.bitCount } }

/-- Positions 9-12: card field, even-parity domain (R63). -/
def acceptCardEven (v : Bool) (c : Slice) : Slice :=
  { c with
    rs :=
      { c.rs with
        cardCode := shiftIn c.rs.cardCode v
        parity0Sum := addBit c.rs.parity0Sum v
        bitCount := bumpCount c.rs.bitCount } }

/-- Positions 13-24: card field, odd-parity domain (R64). -/
def acceptCardOdd (v : Bool) (c : Slice) : Slice :=
  { c with
    rs :=
      { c.rs with
        cardCode := shiftIn c.rs.cardCode v
        parity1Sum := addBit c.rs.parity1Sum v
        bitCount := bumpCount c.rs.bitCount } }

/-- The writes of R65 before its call of `finalize`: the trailing bit, the full code, then the
validator's result, which reads the trailing bit just written. -/
def completeFrame (v : Bool) (rs : ReaderState) : ReaderState :=
  let full := { rs with trailingParityBit := v, fullCode := rs.facilityCode ++ rs.cardCode }
  { full with codeValid := (validate full).ok }

/-- The cause of a completion: `ok ? NONE : PARITY` (R65). -/
def completionCause (ok : Bool) : Cause := if ok then .none else .parity

/-- Position 25: trailing parity bit and frame completion (R65). -/
def acceptTrailing (v : Bool) (c : Slice) : Slice :=
  let rs := completeFrame v c.rs
  let verdict := validate rs
  toIdle (finalize (completionCause verdict.ok) verdict.evenFail verdict.oddFail
    { c with rs := rs })

/-- Position above 25: overrun, the bit is dropped (R66). -/
def overrun (c : Slice) : Slice :=
  toIdle (finalize .overrun false false { c with rs := { c.rs with codeValid := false } })

/-- `ingest_bit(r, v)`: the action is selected by `bit_count` before the bit (R60). -/
def ingestBit (v : Bool) (c : Slice) : Slice :=
  let pos := c.rs.bitCount.toNat
  if pos = 0 then acceptStart v c
  else if pos ≤ 8 then acceptFacility v c
  else if pos ≤ 12 then acceptCardEven v c
  else if pos ≤ 24 then acceptCardOdd v c
  else if pos = 25 then acceptTrailing v c
  else overrun c

end Sys2Proof.Machine
end

