-- ==== Sys2Proof/Machine/Timer.lean ====
section
/-! DEFINITION. The Frame Timer (42_frame_timer.md) and the event TICK. -/

namespace Sys2Proof.Machine

/-- `timer_rearm(r)`: replaces any pending expiry (R81). -/
def timerRearm (timeoutTicks : Nat) (c : Slice) : Slice := { c with tm := ⟨true, timeoutTicks⟩ }

/-- `timer_disarm(r)` (R82). -/
def timerDisarm (c : Slice) : Slice := { c with tm := ⟨false, 0⟩ }

/-- `expire(r)`: an Open frame ends INCOMPLETE (R85); on an Idle reader nothing happens (R86). -/
def expire (c : Slice) : Slice :=
  if c.rs.bitCount = 0 then c else toIdle (finalize .incomplete false false c)

/-- `timer_step(r)` (R84). -/
def timerStep (c : Slice) : Slice :=
  if c.tm.armed = false then c
  else if c.tm.count ≤ 1 then expire (timerDisarm c)
  else { c with tm := { c.tm with count := c.tm.count - 1 } }

/-- What a TICK does to its reader, after the step's default `fin_strobe <- 0` (R83, R90). -/
def tickReader (c : Slice) : Slice := timerStep (clearStrobe c)

/-- TICK (R83). -/
def execTick (r : Nat) (s : State) : Host.Outcome State Fault Refusal :=
  s.onReader r tickReader

end Sys2Proof.Machine
end

