-- ==== Sys2Proof/Machine/Router.lean ====
section
/-! DEFINITION. The Reader Event Router (43_event_router.md): the events NOP, BIT0, BIT1 and COLLIDE. -/

namespace Sys2Proof.Machine

/-- `route(r, v)`: rearm, ingest, and disarm at a frame end (R94). -/
def route (timeoutTicks : Nat) (v : Bool) (c : Slice) : Slice :=
  let ingested := ingestBit v (timerRearm timeoutTicks c)
  if 25 ≤ c.rs.bitCount.toNat then timerDisarm ingested else ingested

/-- What a NOP does to its reader: only the step's default `fin_strobe <- 0` (R91, R90). -/
def nopReader (c : Slice) : Slice := clearStrobe c

/-- What a bit does to its reader, after the step's default `fin_strobe <- 0` (R92, R93, R90). -/
def bitReader (timeoutTicks : Nat) (v : Bool) (c : Slice) : Slice :=
  route timeoutTicks v (clearStrobe c)

/-- NOP (R91). -/
def execNop (r : Nat) (s : State) : Host.Outcome State Fault Refusal :=
  s.onReader r nopReader

/-- BIT0 (R92). -/
def execBit0 (r : Nat) (s : State) : Host.Outcome State Fault Refusal :=
  s.onReader r (bitReader s.timeoutTicks false)

/-- BIT1 (R93). -/
def execBit1 (r : Nat) (s : State) : Host.Outcome State Fault Refusal :=
  s.onReader r (bitReader s.timeoutTicks true)

/-- COLLIDE (R96): "The spec gives the hardware no behaviour for this input." -/
def execCollide (r : Nat) (_ : State) : Host.Outcome State Fault Refusal :=
  .refused (.collide r)

end Sys2Proof.Machine
end

