-- ==== Sys2Proof/Machine/Dispatch.lean ====
section
/-! DEFINITION. One arm an event: its meaning (43_event_router.md R90). An event of a reader includes
the step's default `OUT[r].fin_strobe <- 0` for that reader. -/

namespace Sys2Proof.Machine

def exec (i : Instr) (s : State) : Host.Outcome State Fault Refusal :=
  match i with
  | .reset => Sys2Proof.Machine.execReset s
  | .nop r => Sys2Proof.Machine.execNop r s
  | .tick r => Sys2Proof.Machine.execTick r s
  | .bit0 r => Sys2Proof.Machine.execBit0 r s
  | .bit1 r => Sys2Proof.Machine.execBit1 r s
  | .collide r => Sys2Proof.Machine.execCollide r s

end Sys2Proof.Machine
end

