-- ==== Sys2Proof/Machine/Events.lean ====
section
/-! DEFINITION. Running the events of one step (43_event_router.md R90), one reader after another,
which R8 and R97 allow because no reader reads what another writes. An event that is refused refuses
the whole step (R96). -/

namespace Sys2Proof.Machine

/-- Run events in order, stopping at the first that gives no next state. -/
def runEvents : List Instr → State → Host.Outcome State Fault Refusal
  | [], s => .next s
  | i :: rest, s =>
    match exec i s with
    | .next t => runEvents rest t
    | .fault f => .fault f
    | .refused why => .refused why

/-- The step word on the ports in the current cycle, decoded (R41, R42). -/
def State.decodeInput (s : State) : Decoded := decodeStep s.slices.length s.input.word

/-- What reader `r` has on its ports in the current cycle, `E[r]` (R41). -/
def State.codeOf (s : State) (r : Nat) : EventCode := eventCode s.slices.length s.input.word r

/-- What one event does to the slice of the reader it reaches; COLLIDE reaches no next state, and
its value here is of no account. Statements use it as the machine of one reader alone (R97). -/
def reactTo (timeoutTicks : Nat) (i : Instr) (c : Slice) : Slice :=
  match i with
  | .reset => resetReader c
  | .nop _ => nopReader c
  | .tick _ => tickReader c
  | .bit0 _ => bitReader timeoutTicks false c
  | .bit1 _ => bitReader timeoutTicks true c
  | .collide _ => c

/-- The step word a table word stands for when it is given to reader 0: the word is an event code
(four bits); a wider one is put where the block has no port, so that the step rejects it. -/
def tableWordAtReader0 (n nbits w : Nat) : Nat :=
  if w % 2 ^ nbits < 16 then placeCode n 0 (BitVec.ofNat 4 (w % 2 ^ nbits)) else 2 ^ (2 * n + 2)

end Sys2Proof.Machine
end

