-- ==== Sys2Proof/Machine/Step.lean ====
section
/-! DEFINITION. One step: one rising edge of `clk` (00_scope.md R6, 43_event_router.md R90). -/

namespace Sys2Proof.Machine

/-- Sample the ports, decode, let the next cycle's levels come, run the events. A machine of an
illegal parameter set takes no step (R5). -/
def step (s : State) : Host.Outcome State Fault Refusal :=
  if s.config.Legal then
    match s.decodeInput with
    | .events es => runEvents es s.advanceInput
    | .rejected .wordTooWide => .refused .wordTooWide
  else .refused .illegalParameters

/-- Put a table word on the ports of reader 0 for the next step, the level of `cfg_trace` as it is
(assumption 14). With one reader the next step runs exactly that event. -/
def State.withFetchWord (s : State) (nbits w : Nat) : State :=
  { s with input := { s.input with word := tableWordAtReader0 s.slices.length nbits w } }

end Sys2Proof.Machine
end

