-- ==== Sys2Proof/Machine/Outputs.lean ====
section
/-! DEFINITION. The output ports (30_encoding.md R46, R47; 44_finalization.md R102, R103): plain
outputs of `OUT[r]` and the two combinational strobes. Nothing here writes state. -/

namespace Sys2Proof.Machine

/-- The two-bit cause code (R47). -/
def Cause.code : Cause → BitVec 2
  | .none => 0
  | .incomplete => 1
  | .parity => 2
  | .overrun => 3

/-- `res_strobe = fin_strobe & fin_ok` (R102). -/
def resStrobe (out : OutputRegister) : Bool := out.finStrobe && out.finOk

/-- `trace_strobe = fin_strobe & ~fin_ok & cfg_trace` (R103). -/
def traceStrobe (out : OutputRegister) (cfgTrace : Bool) : Bool :=
  out.finStrobe && !out.finOk && cfgTrace

/-- One reader's output bundle (R46). -/
structure Bundle where
  /-- `fin_strobe[r]`. -/
  finStrobe : Bool
  /-- `fin_ok[r]`. -/
  finOk : Bool
  /-- `fin_cause[r]`. -/
  finCause : BitVec 2
  /-- `fin_even_fail[r]`. -/
  finEvenFail : Bool
  /-- `fin_odd_fail[r]`. -/
  finOddFail : Bool
  /-- `fin_facility[r]`. -/
  finFacility : FacilityCode
  /-- `fin_card[r]`. -/
  finCard : CardCode
  /-- `fin_full[r]`. -/
  finFull : FullCode
  /-- `res_strobe[r]`. -/
  resStrobe : Bool
  /-- `trace_strobe[r]`. -/
  traceStrobe : Bool
  deriving DecidableEq, Repr

/-- The bundle of an output register under a level of `cfg_trace` (R46). -/
def bundleOf (out : OutputRegister) (cfgTrace : Bool) : Bundle where
  finStrobe := out.finStrobe
  finOk := out.finOk
  finCause := out.finCause.code
  finEvenFail := out.finEvenFail
  finOddFail := out.finOddFail
  finFacility := out.finFacility
  finCard := out.finCard
  finFull := out.finFull
  resStrobe := resStrobe out
  traceStrobe := traceStrobe out cfgTrace

/-- What reader `r`'s ports show in the current cycle: its output register under the level of
`cfg_trace` in the same cycle (R103, R133; assumption 11). -/
def State.bundle? (s : State) (r : Nat) : Option Bundle :=
  (s.reader? r).map fun c => bundleOf c.out s.input.cfgTrace

/-- A result as the Result Sink takes it, less the timestamp, which the block does not produce
(R102). -/
structure Result where
  /-- The reader id, the index of the bundle (R46). -/
  readerId : Nat
  /-- `facility_code`. -/
  facility : FacilityCode
  /-- `card_code`. -/
  card : CardCode
  /-- `full_code`. -/
  full : FullCode
  deriving DecidableEq, Repr

/-- The result reader `r` forwards in the current cycle: one exactly when `res_strobe[r]` is 1
(R102). -/
def State.result? (s : State) (r : Nat) : Option Result :=
  match s.reader? r with
  | some c =>
    if resStrobe c.out then some ⟨r, c.out.finFacility, c.out.finCard, c.out.finFull⟩ else none
  | none => none

end Sys2Proof.Machine
end

