-- ==== Sys2Proof/Machine/TraceSyntax.lean ====
section
/-! DEFINITION. The trace notation (30_encoding.md R44, R45, R51, R52): statements, each one step
word, and pseudo-statements, each a list of statements. It is notation: no step reads it. -/

namespace Sys2Proof.Machine

/-- The statements of R51. -/
inductive Stmt where
  /-- `RST`. -/
  | rst
  /-- `NOP`. -/
  | nop
  /-- `TICK`. -/
  | tick
  /-- `B0 r`. -/
  | b0 (r : Nat)
  /-- `B1 r`. -/
  | b1 (r : Nat)
  /-- `STEP [tick] r:v ...`. -/
  | step (withTick : Bool) (bits : List (Nat × Bool))
  deriving DecidableEq, Repr

/-- The port bit of one `r:v` pair: `d0_pulse[r]` if `v = 0`, else `d1_pulse[r]` (R51, R41). -/
def pulseBit (r : Nat) (v : Bool) : Nat := 1 <<< (2 * r + v.toNat)

/-- The step word of a statement, for `n` readers (R51). -/
def Stmt.word (n : Nat) : Stmt → Nat
  | .rst => 1 <<< (2 * n + 1)
  | .nop => 0
  | .tick => 1 <<< (2 * n)
  | .b0 r => pulseBit r false
  | .b1 r => pulseBit r true
  | .step t bits =>
    bits.foldr (fun b S => pulseBit b.1 b.2 ||| S) (if t then 1 <<< (2 * n) else 0)

/-- A statement a block of `n` readers can take: its readers exist (R31), and no reader has both
lines pulsed (`STEP 0:0 0:1` "is not a legal statement", R96). DESIGN CHOICE (assumption 16, safe):
a STEP that names one reader twice with the same bit (`STEP 0:0 0:0`), of which the spec does not say
whether it is legal, is not, though `Stmt.word` gives it its word; a STEP without a pair is. -/
def Stmt.legal (n : Nat) : Stmt → Bool
  | .rst => true
  | .nop => true
  | .tick => true
  | .b0 r => decide (r < n)
  | .b1 r => decide (r < n)
  | .step _ bits => decide ((bits.map Prod.fst).Nodup) && bits.all fun b => decide (b.1 < n)

/-- The bit statement of reader `r`. -/
def Stmt.ofBit (r : Nat) (v : Bool) : Stmt := if v then .b1 r else .b0 r

/-- The field of a frame word that holds positions 1-8, `w[24:17]` (R44). -/
def frameFacility (w : FrameWord) : FacilityCode := w.extractLsb' 17 8

/-- The field of a frame word that holds positions 9-24, `w[16:1]` (R44). -/
def frameCard (w : FrameWord) : CardCode := w.extractLsb' 1 16

/-- The bit at position `p` of a frame word, `w[25-p]` (R44). -/
def frameBit (w : FrameWord) (p : Nat) : Bool := w.getLsbD (25 - p)

/-- The bits of a frame word in the order of arrival. -/
def frameBitsOf (w : FrameWord) : List Bool := (List.range frameBits).map (frameBit w)

/-- Exclusive or of `len` bits of `d` from bit `lo` up. -/
def xorBits (d : FullCode) (lo len : Nat) : Bool :=
  (List.range len).foldr (fun k acc => d.getLsbD (lo + k) ^^ acc) false

/-- `W26(fac, card)`, the well-formed frame (R45). -/
def w26 (fac : FacilityCode) (card : CardCode) : FrameWord :=
  let d : FullCode := fac ++ card
  BitVec.ofBool (xorBits d 12 12) ++ d ++ BitVec.ofBool (!xorBits d 0 12)

/-- `BITS r, n, v`: `n` bits of `v`, the most significant first (R52). The rule gives an expansion for
`1 <= n <= 26` only; that any other `n` expands in the same way (0 to no statement, 27 or more to that
many bits) is a DESIGN CHOICE (assumption 17, safe). -/
def Stmt.bits (r n v : Nat) : List Stmt :=
  (List.range n).map fun i => Stmt.ofBit r (v.testBit (n - 1 - i))

/-- `FRAME r, w` (R52). -/
def Stmt.frame (r : Nat) (w : FrameWord) : List Stmt :=
  (frameBitsOf w).map (Stmt.ofBit r)

/-- `W26 r, fac, card` (R52). -/
def Stmt.w26 (r : Nat) (fac : FacilityCode) (card : CardCode) : List Stmt :=
  Stmt.frame r (Sys2Proof.Machine.w26 fac card)

/-- `TICKS n` (R52). -/
def Stmt.ticks (n : Nat) : List Stmt := List.replicate n .tick

/-- `WAIT n` (R52). -/
def Stmt.wait (n : Nat) : List Stmt := List.replicate n .nop

/-- Put a trace on the ports, one statement a cycle, under one level of `cfg_trace`: how a run of
the block is written (assumption 1). -/
def State.withTrace (s : State) (cfgTrace : Bool) (p : List Stmt) : State :=
  match p with
  | [] => s
  | a :: rest =>
    { s with
      input := ⟨a.word s.slices.length, cfgTrace⟩
      schedule := rest.map fun b => ⟨b.word s.slices.length, cfgTrace⟩ }

end Sys2Proof.Machine
end

