-- ==== Sys2Proof/Safety.lean ====
section
/-! DEFINITION. What statements are said in terms of: the lifecycle of a reader (10_state.md R19), the
invariant of reachable states (R23), the operating envelope (70_reset_and_hazards.md R134 to R137),
and counting frames and notifications along a run (44_finalization.md R106). The machine uses none
of it. -/

namespace Sys2Proof.Machine

/-- The lifecycle states of R19 at a step boundary. -/
inductive Lifecycle where
  /-- Idle: `bit_count = 0`. -/
  | idle
  /-- Open: `1 <= bit_count <= 25`. -/
  | openFrame
  /-- `26..63`, which does not arise from reset: the next bit takes the overrun branch. -/
  | pastEnd
  deriving DecidableEq, Repr

/-- The lifecycle state is a function of `bit_count` (R19). -/
def lifecycle (rs : ReaderState) : Lifecycle :=
  if rs.bitCount.toNat = 0 then .idle
  else if rs.bitCount.toNat ≤ 25 then .openFrame
  else .pastEnd

/-- Whether a lifecycle state is Idle. -/
def Lifecycle.isIdle : Lifecycle → Bool
  | .idle => true
  | .openFrame => false
  | .pastEnd => false

/-- Whether a lifecycle state is Open. -/
def Lifecycle.isOpen : Lifecycle → Bool
  | .openFrame => true
  | .idle => false
  | .pastEnd => false

/-- The number of 1 bits among the low `k` bits of `v`. -/
def onesBelow : Nat → Nat → Nat
  | 0, _ => 0
  | k + 1, v => (v.testBit k).toNat + onesBelow k v

/-- The value of a list of bits, the earliest the most significant (20_memory.md R32). -/
def bitsValue (bs : List Bool) : Nat := bs.foldl (fun acc b => 2 * acc + b.toNat) 0

/-- The invariant of one reader's slice in every state reachable from reset (R23, with R11, R12,
R14, R17, R18, R47, R48 and R104), `T` being `TIMEOUT_TICKS`. While a frame is Open, positions
`1..8` stand in `facility_code` and positions `9..` in `card_code`, so R23.4 is said of these. -/
structure Slice.Inv (T : Nat) (c : Slice) : Prop where
  /-- R23.1. -/
  count_le : c.rs.bitCount.toNat ≤ 25
  /-- R23.2: armed exactly while Open. -/
  armed_iff : c.tm.armed = true ↔ 1 ≤ c.rs.bitCount.toNat
  /-- R23.2: the range of an armed counter. -/
  armed_count : c.tm.armed = true → 1 ≤ c.tm.count ∧ c.tm.count ≤ T
  /-- R23.2: a disarmed counter is 0. -/
  disarmed_count : c.tm.armed = false → c.tm.count = 0
  /-- R23.3. -/
  open_clear : 1 ≤ c.rs.bitCount.toNat →
    c.rs.codeValid = false ∧ c.rs.fullCode = 0 ∧ c.rs.trailingParityBit = false
  /-- R23.4, the bound that holds in Idle states too. -/
  sums_le : c.rs.parity0Sum.toNat ≤ 12 ∧ c.rs.parity1Sum.toNat ≤ 12
  /-- R23.5: the shifters hold no more bits than the frame has sent. -/
  open_fields : 1 ≤ c.rs.bitCount.toNat →
    c.rs.facilityCode.toNat < 2 ^ (c.rs.bitCount.toNat - 1) ∧
    c.rs.cardCode.toNat < 2 ^ (c.rs.bitCount.toNat - 9)
  /-- R23.4: the sum of positions `1..min(bit_count-1, 12)`. -/
  open_sum0 : 1 ≤ c.rs.bitCount.toNat →
    c.rs.parity0Sum.toNat =
      onesBelow 8 c.rs.facilityCode.toNat +
        onesBelow 4 (c.rs.cardCode.toNat >>> (c.rs.bitCount.toNat - 13))
  /-- R23.4: the sum of positions `13..min(bit_count-1, 24)`. -/
  open_sum1 : 1 ≤ c.rs.bitCount.toNat →
    c.rs.parity1Sum.toNat = onesBelow (c.rs.bitCount.toNat - 13) c.rs.cardCode.toNat
  /-- R104: a reader whose notification is on the ports is Idle. -/
  strobe_idle : c.out.finStrobe = true → c.rs.bitCount.toNat = 0
  /-- R47: on a notification, `fin_ok = 1` exactly when `fin_cause = 0`; R113: no OVERRUN. -/
  strobe_ok : c.out.finStrobe = true →
    (c.out.finOk = true ↔ c.out.finCause = .none) ∧ c.out.finCause ≠ .overrun

/-- The invariant of the block: a legal parameter set (R5), and every reader's slice as R23 says. -/
structure State.Inv (s : State) : Prop where
  /-- R5. -/
  legal : s.config.Legal
  /-- R23. -/
  slices_inv : ∀ c ∈ s.slices, c.Inv s.timeoutTicks

/-- The number of `tick` strobes in a stretch of steps in which a reader gets no bit. A stretch is
written as a list, `true` a TICK and `false` a NOP. -/
def ticksIn (gap : List Bool) : Nat := gap.count true

/-- The events a stretch without bits gives reader `r`. -/
def gapEvents (r : Nat) (gap : List Bool) : List Instr :=
  gap.map fun t => if t then .tick r else .nop r

/-- Bits on reader `r`, each followed by a stretch without bits. -/
def spacedBits (r : Nat) (bits : List (Bool × List Bool)) : List Instr :=
  bits.flatMap fun b => .ofBit r b.1 :: gapEvents r b.2

/-- The gap premise (R134), counted in ticks: after each of these bits fewer than `T` ticks come
before the next bit. -/
def gapPremise (T : Nat) (bits : List (Bool × List Bool)) : Prop :=
  ∀ b ∈ bits, ticksIn b.2 < T

/-- `k` steps, stopping at the first that gives no next state. -/
def runSteps : Nat → State → Host.Outcome State Fault Refusal
  | 0, s => .next s
  | k + 1, s =>
    match step s with
    | .next t => runSteps k t
    | .fault f => .fault f
    | .refused why => .refused why

/-- Two blocks with the same parameters, slices and step words: they may differ in the levels of
`cfg_trace`, now and later. -/
structure AgreeButTrace (s t : State) : Prop where
  /-- The same parameters. -/
  params : s.tw = t.tw ∧ s.timeoutTicks = t.timeoutTicks
  /-- The same slices. -/
  slices : s.slices = t.slices
  /-- The same step word now. -/
  word : s.input.word = t.input.word
  /-- The same step words later. -/
  schedule : s.schedule.map StepInput.word = t.schedule.map StepInput.word

/-- What stands on the input ports `k` cycles from now. -/
def State.inputAt (s : State) : Nat → StepInput
  | 0 => s.input
  | k + 1 => s.advanceInput.inputAt k

/-- Reader `r`'s event code `k` cycles from now (R41). -/
def State.codeAt (s : State) (r k : Nat) : EventCode :=
  eventCode s.slices.length (s.inputAt k).word r

/-- Whether `rst` is high `k` cycles from now. -/
def State.rstAt (s : State) (k : Nat) : Bool :=
  (s.inputAt k).word.testBit (2 * s.slices.length + 1)

/-- Reader `r` is Open. -/
def State.isOpen (s : State) (r : Nat) : Bool :=
  match s.reader? r with
  | some c => (lifecycle c.rs).isOpen
  | none => false

/-- Reader `r` has a notification on its ports. -/
def State.notifies (s : State) (r : Nat) : Bool :=
  match s.reader? r with
  | some c => c.out.finStrobe
  | none => false

/-- The next step gives reader `r` the position-0 bit of a frame: a bit while it is Idle. -/
def State.opensFrame (s : State) (r : Nat) : Bool :=
  match s.reader? r with
  | some c =>
    (lifecycle c.rs).isIdle && (decodeEvent r (s.codeOf r)).isBit
  | none => false

/-- How many frames of reader `r` are opened in the next `k` steps. -/
def framesOpened (r : Nat) : Nat → State → Nat
  | 0, _ => 0
  | k + 1, s =>
    match step s with
    | .next t => (s.opensFrame r).toNat + framesOpened r k t
    | .fault _ => 0
    | .refused _ => 0

/-- How many notifications of reader `r` the next `k` steps make. -/
def notificationsMade (r : Nat) : Nat → State → Nat
  | 0, _ => 0
  | k + 1, s =>
    match step s with
    | .next t => (t.notifies r).toNat + notificationsMade r k t
    | .fault _ => 0
    | .refused _ => 0

/-- The even-parity domain of a frame word with its leading bit, positions 0-12, holds an even number
of ones (41_parity_validator.md R75). -/
def evenParityHolds (w : FrameWord) : Bool :=
  ((frameBitsOf w).take 13).count true % 2 == 0

/-- The odd-parity domain of a frame word with its trailing bit, positions 13-25, holds an odd number
of ones (R75). -/
def oddParityHolds (w : FrameWord) : Bool :=
  ((frameBitsOf w).drop 13).count true % 2 == 1

end Sys2Proof.Machine
end

