-- ==== Sys2Proof/Certificates/Slice0/Obligations.lean ====
section
/-! DEFINITION. The statements for the provers. Each docstring names the rules of spec/ the statement
formalises. A slice is given by `s.slices[r]? = some c`; a reader the block does not have has none. -/

open Sys2Proof Sys2Proof.Machine

/-! ## Decoding and encoding -/

/-- R42: each of the sixteen codes and its event. -/
def Obligations.SixteenCodesDecode : Prop :=
  ∀ r : Nat,
    decodeEvent r 0b0000#4 = .nop r ∧ decodeEvent r 0b0100#4 = .tick r ∧
    decodeEvent r 0b0001#4 = .bit0 r ∧ decodeEvent r 0b0101#4 = .bit0 r ∧
    decodeEvent r 0b0010#4 = .bit1 r ∧ decodeEvent r 0b0110#4 = .bit1 r ∧
    decodeEvent r 0b0011#4 = .collide r ∧ decodeEvent r 0b0111#4 = .collide r ∧
    decodeEvent r 0b1000#4 = .reset ∧ decodeEvent r 0b1001#4 = .reset ∧
    decodeEvent r 0b1010#4 = .reset ∧ decodeEvent r 0b1011#4 = .reset ∧
    decodeEvent r 0b1100#4 = .reset ∧ decodeEvent r 0b1101#4 = .reset ∧
    decodeEvent r 0b1110#4 = .reset ∧ decodeEvent r 0b1111#4 = .reset

/-- R42, the match and mask columns: a code decodes to an event exactly when the bits of the event's
mask are those of its match. -/
def Obligations.CodeIsEventIffMaskMatches : Prop :=
  ∀ (r : Nat) (e : EventCode) (i : Instr),
    decodeEvent r e = i ↔
      (i.reader? = none ∨ i.reader? = some r) ∧ e &&& i.maskBits = i.matchBits

/-- R41: the four bits of `E[r]` in the step word. -/
def Obligations.EventCodeTakesFourBitsOfStepWord : Prop :=
  ∀ n S r : Nat, r < n →
    (eventCode n S r).getLsbD 3 = S.testBit (2 * n + 1) ∧
    (eventCode n S r).getLsbD 2 = S.testBit (2 * n) ∧
    (eventCode n S r).getLsbD 1 = S.testBit (2 * r + 1) ∧
    (eventCode n S r).getLsbD 0 = S.testBit (2 * r)

/-- Decoding the step word of the events of one step gives them back, for any number of readers. -/
def Obligations.DecodeOfEncodedStep : Prop :=
  ∀ (n : Nat) (es : List Instr), wellFormedStep n es = true →
    decodeStep n (encodeStep n es) = .events es

/-- The other direction. A word is rejected exactly when it has a bit where there is no port: that it
is rejected is the model's choice (assumption 6, DESIGN CHOICE). What any other word decodes
to is well formed, and its step word agrees with the word in every bit no event ignores: `rst`; with
`rst = 0` every pulse; and `tick`, where some reader has no pulse (R42). -/
def Obligations.EncodeOfDecodedStep : Prop :=
  ∀ n S : Nat,
    (decodeStep n S = .rejected .wordTooWide ↔ 2 ^ (2 * n + 2) ≤ S) ∧
    ∀ es, decodeStep n S = .events es →
      wellFormedStep n es = true ∧
      (encodeStep n es).testBit (2 * n + 1) = S.testBit (2 * n + 1) ∧
      (S.testBit (2 * n + 1) = false →
        (∀ k, k < 2 * n → (encodeStep n es).testBit k = S.testBit k) ∧
        ((∃ r, r < n ∧ S.testBit (2 * r) = false ∧ S.testBit (2 * r + 1) = false) →
          (encodeStep n es).testBit (2 * n) = S.testBit (2 * n)))

/-- R51: the events of every legal trace statement, for any number of readers. Which STEP statements
are legal beyond R96 is the model's choice (assumption 16). -/
def Obligations.TraceStatementEvents : Prop :=
  ∀ (n : Nat) (a : Stmt), a.legal n = true →
    decodeStep n (a.word n) = .events
      (match a with
      | .rst => [.reset]
      | .nop => (List.range n).map .nop
      | .tick => (List.range n).map .tick
      | .b0 r => (List.range n).map fun q => if q = r then .bit0 r else .nop q
      | .b1 r => (List.range n).map fun q => if q = r then .bit1 r else .nop q
      | .step t bits =>
        (List.range n).map fun q =>
          match bits.lookup q with
          | some true => .bit1 q
          | some false => .bit0 q
          | none => if t then .tick q else .nop q)

/-! ## The frame layout -/

/-- R44 and R32: the fields of a frame word, position by position. -/
def Obligations.FrameWordFieldPositions : Prop :=
  ∀ w : FrameWord,
    (frameBitsOf w).length = 26 ∧
    (frameFacility w).toNat = bitsValue (((frameBitsOf w).drop 1).take 8) ∧
    (frameCard w).toNat = bitsValue (((frameBitsOf w).drop 9).take 16) ∧
    (frameBitsOf w)[0]? = some (w.getLsbD 25) ∧ (frameBitsOf w)[25]? = some (w.getLsbD 0)

/-- R45: `W26(fac, card)` is the only frame with these fields that holds both parities. -/
def Obligations.WellFormedFrameIsUnique : Prop :=
  ∀ w : FrameWord,
    (evenParityHolds w = true ∧ oddParityHolds w = true) ↔ w = w26 (frameFacility w) (frameCard w)

/-- R45: the fields of `W26(fac, card)` are `fac` and `card`. -/
def Obligations.WellFormedFrameCarriesFields : Prop :=
  ∀ (fac : FacilityCode) (card : CardCode),
    frameFacility (w26 fac card) = fac ∧ frameCard (w26 fac card) = card

/-- R139: a single error in a frame that holds both parities breaks the parity of its domain, and
leaves the other as it is. -/
def Obligations.SingleBitErrorBreaksParity : Prop :=
  ∀ (w : FrameWord) (p : Nat), p < 26 → evenParityHolds w = true → oddParityHolds w = true →
    evenParityHolds (w ^^^ BitVec.twoPow 26 (25 - p)) = decide (13 ≤ p) ∧
    oddParityHolds (w ^^^ BitVec.twoPow 26 (25 - p)) = decide (p < 13)

/-! ## The step -/

/-- A step is the decoded events run on the state in which the next cycle's inputs stand on the
ports. Where the step word holds one event (one reader, or RESET), the step is that event. What
stands on the ports next is the model's choice (assumptions 1 and 2); that the events run one after
another is its inference (assumption 7). -/
def Obligations.StepRunsDecodedEvents : Prop :=
  ∀ (s : State) (es : List Instr), s.config.Legal →
    decodeStep s.slices.length s.input.word = .events es →
    let s' : State :=
      { s with
        input := s.schedule.headD ⟨0, s.input.cfgTrace⟩
        schedule := s.schedule.tail }
    step s = runEvents es s' ∧ ∀ i, es = [i] → step s = exec i s'

/-- R7, R49, R96, R115: on a word of the block's width a step gives a next state exactly when `rst`
is high or no reader has both lines pulsed, and otherwise it is refused for COLLIDE. -/
def Obligations.StepRefusedExactlyOnCollision : Prop :=
  ∀ s : State, s.config.Legal → s.input.word < 2 ^ (2 * s.slices.length + 2) →
    let W := s.input.word
    let n := s.slices.length
    ((∃ t, step s = .next t) ↔
      (W.testBit (2 * n + 1) = true ∨
        ∀ r, r < n → ¬(W.testBit (2 * r + 1) = true ∧ W.testBit (2 * r) = true))) ∧
    ((¬∃ t, step s = .next t) →
      ∃ r, r < n ∧ W.testBit (2 * r + 1) = true ∧ W.testBit (2 * r) = true ∧
        step s = .refused (.collide r))

/-- R5: no machine is built for an illegal parameter set. That a state of one, which can be written
down all the same, answers step with this refusal is the model's inference (assumption 4,
DEDUCED). -/
def Obligations.IllegalParametersRefused : Prop :=
  (∀ c : Config, State.build? c = none ↔
    ¬(1 ≤ c.nReaders ∧ 1 ≤ c.tw ∧ 1 ≤ c.timeoutTicks ∧ c.timeoutTicks ≤ 2 ^ c.tw - 1)) ∧
  ∀ s : State,
    ¬(1 ≤ s.slices.length ∧ 1 ≤ s.tw ∧ 1 ≤ s.timeoutTicks ∧ s.timeoutTicks ≤ 2 ^ s.tw - 1) →
    step s = .refused .illegalParameters

/-- The model's choice (assumption 6): a word with a bit above the block's ports is refused. -/
def Obligations.WordWiderThanPortsRefused : Prop :=
  ∀ s : State, s.config.Legal → 2 ^ (2 * s.slices.length + 2) ≤ s.input.word →
    step s = .refused .wordTooWide

/-- R115.1 and R130: `rst` is before everything: with it high, whatever else the word holds
(pulses on both lines of a reader included), the step resets every reader. What stands on the ports
next is the model's choice (assumptions 1 and 2). -/
def Obligations.ResetTakesPrecedenceInStep : Prop :=
  ∀ s : State, s.config.Legal → s.input.word < 2 ^ (2 * s.slices.length + 2) →
    s.input.word.testBit (2 * s.slices.length + 1) = true →
    step s = .next
      { s with
        slices := List.replicate s.slices.length Slice.zero
        input := s.schedule.headD ⟨0, s.input.cfgTrace⟩
        schedule := s.schedule.tail }

/-- R33, R90: after a step, every reader's slice is what that reader's own event alone makes of it,
and the block's parameters and number of readers are what they were. -/
def Obligations.StepGivesEachReaderItsOwnEvent : Prop :=
  ∀ s t : State, step s = .next t →
    t.tw = s.tw ∧ t.timeoutTicks = s.timeoutTicks ∧ t.slices.length = s.slices.length ∧
    ∀ r, r < s.slices.length →
      ∃ u, exec (decodeEvent r (eventCode s.slices.length s.input.word r)) s = .next u ∧
        t.slices[r]? = u.slices[r]?

/-- R33: an event of a reader changes that reader's slice alone, by what `reactTo` says; RESET
reaches every reader. Nothing else of the state changes. -/
def Obligations.EventChangesOnlyItsReader : Prop :=
  ∀ (s t : State) (i : Instr), exec i s = .next t →
    t.tw = s.tw ∧ t.timeoutTicks = s.timeoutTicks ∧ t.input = s.input ∧ t.schedule = s.schedule ∧
    t.slices.length = s.slices.length ∧
    ∀ (r : Nat) (c : Slice), s.slices[r]? = some c →
      t.slices[r]? =
        some (if i.reader? = none ∨ i.reader? = some r then reactTo s.timeoutTicks i c else c)

/-- R8, R97: the events of different readers give the same state in every order. -/
def Obligations.ReaderOrderDoesNotMatter : Prop :=
  ∀ (s t : State) (es es' : List Instr), es.Perm es' →
    (∀ i ∈ es, i ≠ .reset) → (es.filterMap Instr.reader?).Nodup →
    runEvents es s = .next t → runEvents es' s = .next t

/-- R97: along a run, reader `r`'s slice is the one-reader machine `reactTo` run over reader `r`'s
own codes. The codes of a run's later steps stand in its schedule, and are quiet after its end: the
model's choice (assumptions 1 and 2). -/
def Obligations.RunIsProductOfReaders : Prop :=
  ∀ (k : Nat) (s t : State) (r : Nat) (c : Slice), runSteps k s = .next t →
    s.slices[r]? = some c →
    t.slices[r]? =
      some ((List.range k).foldl
        (fun c j => reactTo s.timeoutTicks (decodeEvent r (s.codeAt r j)) c) c)

/-- R97, R33: two blocks of any sizes in which a reader has the same slice, the same timeout and the
same codes for `k` steps end with the same slice of that reader, whatever the other readers do. The
codes of later steps are held as in assumptions 1 and 2. -/
def Obligations.OtherReadersDoNotInterfere : Prop :=
  ∀ (k : Nat) (s s' t t' : State) (r : Nat),
    s.timeoutTicks = s'.timeoutTicks → r < s.slices.length → s.slices[r]? = s'.slices[r]? →
    (∀ j, j < k → s.codeAt r j = s'.codeAt r j) →
    runSteps k s = .next t → runSteps k s' = .next t' → t.slices[r]? = t'.slices[r]?

/-- R103: `cfg_trace` changes no state and no output but `trace_strobe`, along a run of any
length. -/
def Obligations.TraceToggleChangesOnlyTraceStrobe : Prop :=
  ∀ (k : Nat) (s s' t : State), AgreeButTrace s s' → runSteps k s = .next t →
    ∃ t', runSteps k s' = .next t' ∧ AgreeButTrace t t' ∧
      ∀ r, (t.bundle? r).map (fun b => { b with traceStrobe := false }) =
        (t'.bundle? r).map (fun b => { b with traceStrobe := false })

/-! ## The events -/

/-- R130, R22: RESET puts every field of every reader to 0, from any state. -/
def Obligations.ResetClearsEveryField : Prop :=
  ∀ s : State, exec .reset s = .next
    { s with
      slices := List.replicate s.slices.length
        { rs := ⟨0, 0, 0, 0, 0, 0, false, false, false⟩
          tm := ⟨false, 0⟩
          out := ⟨false, false, .none, false, false, 0, 0, 0⟩ } }

/-- R91: NOP changes nothing but `fin_strobe`, which it clears. -/
def Obligations.NopClearsOnlyStrobe : Prop :=
  ∀ (s : State) (r : Nat) (c : Slice), s.slices[r]? = some c →
    exec (.nop r) s = .next
      { s with slices := s.slices.set r { c with out := { c.out with finStrobe := false } } }

/-- R84, first case: a TICK on a reader with no timer pending changes nothing but `fin_strobe`. -/
def Obligations.TickWithNoTimerPending : Prop :=
  ∀ (s : State) (r : Nat) (c : Slice), s.slices[r]? = some c → c.tm.armed = false →
    exec (.tick r) s = .next
      { s with slices := s.slices.set r { c with out := { c.out with finStrobe := false } } }

/-- R84, third case: a TICK with `count >= 2` counts down. -/
def Obligations.TickCountsDown : Prop :=
  ∀ (s : State) (r : Nat) (c : Slice), s.slices[r]? = some c → c.tm.armed = true →
    2 ≤ c.tm.count →
    exec (.tick r) s = .next
      { s with
        slices := s.slices.set r
          { c with tm := ⟨true, c.tm.count - 1⟩, out := { c.out with finStrobe := false } } }

/-- R85: the TICK that finds `count <= 1` ends a frame INCOMPLETE, `fin_ok = 0` whatever `code_valid`
is, disarms the timer and leaves every field of the Reader State but `bit_count`. -/
def Obligations.TickTimesOutOpenFrame : Prop :=
  ∀ (s : State) (r : Nat) (c : Slice), s.slices[r]? = some c → c.tm.armed = true →
    c.tm.count ≤ 1 → c.rs.bitCount ≠ 0 →
    exec (.tick r) s = .next
      { s with
        slices := s.slices.set r
          { rs := { c.rs with bitCount := 0 }
            tm := ⟨false, 0⟩
            out :=
              { finStrobe := true, finOk := false, finCause := .incomplete
                finEvenFail := false, finOddFail := false
                finFacility := c.rs.facilityCode, finCard := c.rs.cardCode
                finFull := c.rs.fullCode } } }

/-- R86: an expiry on an Idle reader makes no notification and leaves the Reader State. -/
def Obligations.TickExpiryOnIdleIsSilent : Prop :=
  ∀ (s : State) (r : Nat) (c : Slice), s.slices[r]? = some c → c.tm.armed = true →
    c.tm.count ≤ 1 → c.rs.bitCount = 0 →
    exec (.tick r) s = .next
      { s with
        slices := s.slices.set r
          { c with tm := ⟨false, 0⟩, out := { c.out with finStrobe := false } } }

/-- R61: BIT0 (`v = 0`) and BIT1 (`v = 1`) at position 0 start a frame: every field of the Reader
State is rewritten, and the timer is armed. -/
def Obligations.BitAtPositionZeroStartsFrame : Prop :=
  ∀ (s : State) (r : Nat) (v : Bool) (c : Slice), s.slices[r]? = some c → c.rs.bitCount = 0 →
    exec (.ofBit r v) s = .next
      { s with
        slices := s.slices.set r
          { rs :=
              { bitCount := 1, parity0Sum := 0, parity1Sum := 0, facilityCode := 0, cardCode := 0
                fullCode := 0, leadingParityBit := v, trailingParityBit := false
                codeValid := false }
            tm := ⟨true, s.timeoutTicks⟩
            out := { c.out with finStrobe := false } } }

/-- R62: BIT0 and BIT1 at positions 1-8. -/
def Obligations.BitAtFacilityPosition : Prop :=
  ∀ (s : State) (r : Nat) (v : Bool) (c : Slice), s.slices[r]? = some c →
    1 ≤ c.rs.bitCount.toNat → c.rs.bitCount.toNat ≤ 8 →
    exec (.ofBit r v) s = .next
      { s with
        slices := s.slices.set r
          { rs :=
              { c.rs with
                facilityCode := (c.rs.facilityCode <<< 1) ||| (if v then 1 else 0)
                parity0Sum := c.rs.parity0Sum + (if v then 1 else 0)
                bitCount := c.rs.bitCount + 1 }
            tm := ⟨true, s.timeoutTicks⟩
            out := { c.out with finStrobe := false } } }

/-- R63: BIT0 and BIT1 at positions 9-12. -/
def Obligations.BitAtEvenCardPosition : Prop :=
  ∀ (s : State) (r : Nat) (v : Bool) (c : Slice), s.slices[r]? = some c →
    9 ≤ c.rs.bitCount.toNat → c.rs.bitCount.toNat ≤ 12 →
    exec (.ofBit r v) s = .next
      { s with
        slices := s.slices.set r
          { rs :=
              { c.rs with
                cardCode := (c.rs.cardCode <<< 1) ||| (if v then 1 else 0)
                parity0Sum := c.rs.parity0Sum + (if v then 1 else 0)
                bitCount := c.rs.bitCount + 1 }
            tm := ⟨true, s.timeoutTicks⟩
            out := { c.out with finStrobe := false } } }

/-- R64: BIT0 and BIT1 at positions 13-24. -/
def Obligations.BitAtOddCardPosition : Prop :=
  ∀ (s : State) (r : Nat) (v : Bool) (c : Slice), s.slices[r]? = some c →
    13 ≤ c.rs.bitCount.toNat → c.rs.bitCount.toNat ≤ 24 →
    exec (.ofBit r v) s = .next
      { s with
        slices := s.slices.set r
          { rs :=
              { c.rs with
                cardCode := (c.rs.cardCode <<< 1) ||| (if v then 1 else 0)
                parity1Sum := c.rs.parity1Sum + (if v then 1 else 0)
                bitCount := c.rs.bitCount + 1 }
            tm := ⟨true, s.timeoutTicks⟩
            out := { c.out with finStrobe := false } } }

/-- R65 with R70 to R72, R100 and R82: BIT0 and BIT1 at position 25 complete the frame. -/
def Obligations.BitAtTrailingPositionCompletesFrame : Prop :=
  ∀ (s : State) (r : Nat) (v : Bool) (c : Slice), s.slices[r]? = some c →
    c.rs.bitCount.toNat = 25 →
    let evenOk := c.rs.parity0Sum.getLsbD 0 == c.rs.leadingParityBit
    let oddOk := (!c.rs.parity1Sum.getLsbD 0) == v
    let ok := evenOk && oddOk
    exec (.ofBit r v) s = .next
      { s with
        slices := s.slices.set r
          { rs :=
              { c.rs with
                trailingParityBit := v
                fullCode := c.rs.facilityCode ++ c.rs.cardCode
                codeValid := ok
                bitCount := 0 }
            tm := ⟨false, 0⟩
            out :=
              { finStrobe := true, finOk := ok, finCause := if ok then .none else .parity
                finEvenFail := !evenOk, finOddFail := !oddOk
                finFacility := c.rs.facilityCode, finCard := c.rs.cardCode
                finFull := c.rs.facilityCode ++ c.rs.cardCode } } }

/-- R66 with R100 and R82: BIT0 and BIT1 above position 25 drop the bit and end in OVERRUN. -/
def Obligations.BitPastFrameEndOverruns : Prop :=
  ∀ (s : State) (r : Nat) (v : Bool) (c : Slice), s.slices[r]? = some c →
    26 ≤ c.rs.bitCount.toNat →
    exec (.ofBit r v) s = .next
      { s with
        slices := s.slices.set r
          { rs := { c.rs with codeValid := false, bitCount := 0 }
            tm := ⟨false, 0⟩
            out :=
              { finStrobe := true, finOk := false, finCause := .overrun
                finEvenFail := false, finOddFail := false
                finFacility := c.rs.facilityCode, finCard := c.rs.cardCode
                finFull := c.rs.fullCode } } }

/-- R96: COLLIDE has no next state, in any state. -/
def Obligations.CollideIsRefused : Prop :=
  ∀ (s : State) (r : Nat), exec (.collide r) s = .refused (.collide r)

/-- R31: only a reader the block does not have makes an event other than COLLIDE stop, which no
step does; that such an event is refused is the model's choice (assumption 5). -/
def Obligations.EventsOfPresentReadersComplete : Prop :=
  ∀ (s : State) (i : Instr), (∀ r, i ≠ .collide r) →
    ((∃ t, exec i s = .next t) ↔ i.wellFormed s.slices.length = true)

/-- R87: for a reader with a pulse the `tick` of the same step is of no account: its slice after the
step is the same with `tick` flipped. Its timer is rearmed, or disarmed at a frame end. -/
def Obligations.TickIgnoredForPulsedReader : Prop :=
  ∀ (s t t' : State) (r : Nat) (c : Slice), s.slices[r]? = some c →
    s.input.word.testBit (2 * s.slices.length + 1) = false →
    (s.input.word.testBit (2 * r) = true ∨ s.input.word.testBit (2 * r + 1) = true) →
    step s = .next t →
    step { s with input := { s.input with word := s.input.word ^^^ 2 ^ (2 * s.slices.length) } } =
      .next t' →
    t.slices[r]? = t'.slices[r]? ∧
    ∃ c', t.slices[r]? = some c' ∧
      c'.tm = if c.rs.bitCount.toNat < 25 then ⟨true, s.timeoutTicks⟩ else ⟨false, 0⟩

/-! ## The validator, the notification and the ports -/

/-- R70, R71, R72, R76: the verdict from the low bits of the sums and the two parity bits. -/
def Obligations.ValidatorTruthTable : Prop :=
  ∀ rs : ReaderState,
    let even := !(rs.parity0Sum.getLsbD 0 ^^ rs.leadingParityBit)
    let odd := rs.parity1Sum.getLsbD 0 ^^ rs.trailingParityBit
    validate rs = ⟨even && odd, !even, !odd⟩

/-- R47, R48, R110: a notification made by any event in any state says `fin_ok = 1` exactly when
the cause is NONE, has a fail flag exactly when the cause is PARITY, and leaves its reader Idle
with no timer pending. -/
def Obligations.NotificationIsConsistent : Prop :=
  ∀ (s t : State) (i : Instr) (r : Nat) (c' : Slice), exec i s = .next t → i.reader? = some r →
    t.slices[r]? = some c' → c'.out.finStrobe = true →
    (c'.out.finOk = true ↔ c'.out.finCause = .none) ∧
    ((c'.out.finEvenFail = true ∨ c'.out.finOddFail = true) ↔ c'.out.finCause = .parity) ∧
    c'.rs.bitCount = 0 ∧ c'.tm = ⟨false, 0⟩

/-- R101: in a step that is no reset, a reader that makes no notification holds every other field of
its output register, and its strobe is 0. -/
def Obligations.OutputHoldsBetweenNotifications : Prop :=
  ∀ (s t : State) (r : Nat) (c c' : Slice), step s = .next t →
    s.input.word.testBit (2 * s.slices.length + 1) = false →
    s.slices[r]? = some c → t.slices[r]? = some c' → c'.out.finStrobe = false →
    c'.out = { c.out with finStrobe := false }

/-- R104: no notification of a reader follows its previous one in the very next step. -/
def Obligations.NotificationsAreTwoStepsApart : Prop :=
  ∀ (s t : State) (r : Nat), s.Inv → step s = .next t → s.notifies r = true →
    t.notifies r = false

/-- R46, R47, R103: the output bundle of a reader. That `trace_strobe` pairs the output register with
the level of `cfg_trace` in the same state is the model's inference (assumption 11, DEDUCED). -/
def Obligations.OutputBundleFields : Prop :=
  ∀ (s : State) (r : Nat) (c : Slice), s.slices[r]? = some c →
    s.bundle? r = some
      { finStrobe := c.out.finStrobe
        finOk := c.out.finOk
        finCause :=
          match c.out.finCause with
          | .none => 0
          | .incomplete => 1
          | .parity => 2
          | .overrun => 3
        finEvenFail := c.out.finEvenFail
        finOddFail := c.out.finOddFail
        finFacility := c.out.finFacility
        finCard := c.out.finCard
        finFull := c.out.finFull
        resStrobe := c.out.finStrobe && c.out.finOk
        traceStrobe := c.out.finStrobe && !c.out.finOk && s.input.cfgTrace }

/-- R102: a result is forwarded exactly when `fin_strobe & fin_ok`, with the reader's id and the three
codes. -/
def Obligations.ResultForwardedExactlyOnResStrobe : Prop :=
  ∀ (s : State) (r : Nat) (x : Result),
    s.result? r = some x ↔
      ∃ c, s.slices[r]? = some c ∧ c.out.finStrobe = true ∧ c.out.finOk = true ∧
        x = ⟨r, c.out.finFacility, c.out.finCard, c.out.finFull⟩

/-- R11, R17, R18: the events that change `code_valid`, `bit_count` and the timer. -/
def Obligations.WritersOfFrameControl : Prop :=
  ∀ (s t : State) (i : Instr) (r : Nat) (c c' : Slice), exec i s = .next t →
    s.slices[r]? = some c → t.slices[r]? = some c' → i ≠ .reset →
    (c'.rs.codeValid ≠ c.rs.codeValid →
      (i = .bit0 r ∨ i = .bit1 r) ∧ (c.rs.bitCount.toNat = 0 ∨ 25 ≤ c.rs.bitCount.toNat)) ∧
    (c'.rs.bitCount ≠ c.rs.bitCount →
      (i = .bit0 r ∨ i = .bit1 r) ∨ (i = .tick r ∧ c.tm.armed = true ∧ c.tm.count ≤ 1)) ∧
    (c'.tm ≠ c.tm → (i = .bit0 r ∨ i = .bit1 r) ∨ (i = .tick r ∧ c.tm.armed = true))

/-! ## The lifecycle, invariants and runs -/

/-- R80: the transitions of the lifecycle, with the timer and the notification of each. -/
def Obligations.LifecycleTransitions : Prop :=
  ∀ (s : State) (r : Nat) (c : Slice), s.slices[r]? = some c →
    (∀ v, ∃ t c', exec (.ofBit r v) s = .next t ∧ t.slices[r]? = some c' ∧
      (lifecycle c.rs = .idle →
        lifecycle c'.rs = .openFrame ∧ c'.tm = ⟨true, s.timeoutTicks⟩ ∧
          c'.out.finStrobe = false) ∧
      (lifecycle c.rs = .openFrame → c.rs.bitCount.toNat ≤ 24 →
        lifecycle c'.rs = .openFrame ∧ c'.tm = ⟨true, s.timeoutTicks⟩ ∧
          c'.out.finStrobe = false) ∧
      (lifecycle c.rs = .openFrame → c.rs.bitCount.toNat = 25 →
        lifecycle c'.rs = .idle ∧ c'.tm = ⟨false, 0⟩ ∧ c'.out.finStrobe = true ∧
          (c'.out.finCause = .none ∨ c'.out.finCause = .parity)) ∧
      (lifecycle c.rs = .pastEnd →
        lifecycle c'.rs = .idle ∧ c'.tm = ⟨false, 0⟩ ∧ c'.out.finStrobe = true ∧
          c'.out.finCause = .overrun)) ∧
    (∃ t c', exec (.tick r) s = .next t ∧ t.slices[r]? = some c' ∧
      (lifecycle c.rs = .openFrame → c.tm.armed = true → c.tm.count ≤ 1 →
        lifecycle c'.rs = .idle ∧ c'.tm = ⟨false, 0⟩ ∧ c'.out.finStrobe = true ∧
          c'.out.finCause = .incomplete) ∧
      (lifecycle c.rs = .openFrame → c.tm.armed = true → 2 ≤ c.tm.count →
        lifecycle c'.rs = .openFrame ∧ c'.tm = ⟨true, c.tm.count - 1⟩ ∧
          c'.out.finStrobe = false) ∧
      (lifecycle c.rs = .idle → c.tm.armed = false →
        lifecycle c'.rs = .idle ∧ c'.tm.armed = false ∧ c'.out.finStrobe = false)) ∧
    (∃ t c', exec .reset s = .next t ∧ t.slices[r]? = some c' ∧
      lifecycle c'.rs = .idle ∧ c'.tm = ⟨false, 0⟩ ∧ c'.out.finStrobe = false) ∧
    (∃ t c', exec (.nop r) s = .next t ∧ t.slices[r]? = some c' ∧
      c'.rs = c.rs ∧ c'.tm = c.tm ∧ c'.out.finStrobe = false)

/-- R22, R23: the reset state of every legal parameter set, under any inputs, has the invariant, and
RESET brings any state of a legal parameter set into it. -/
def Obligations.ResetStateHasInvariant : Prop :=
  (∀ (c : Config) (a : StepInput) (l : List StepInput), c.Legal →
    State.Inv { State.resetOf c with input := a, schedule := l }) ∧
  ∀ s t : State, s.config.Legal → exec .reset s = .next t → t.Inv

/-- R23: every step keeps the invariant, from every state that has it. -/
def Obligations.StepKeepsInvariant : Prop :=
  ∀ s t : State, s.Inv → step s = .next t → t.Inv

/-- R11, R113: in a run from reset of a legal parameter set under any inputs, `bit_count` stays at
most 25 and no notification has the cause OVERRUN. -/
def Obligations.NoOverrunInRunFromReset : Prop :=
  ∀ (p : Config) (a : StepInput) (l : List StepInput) (k : Nat) (t : State), p.Legal →
    runSteps k { State.resetOf p with input := a, schedule := l } = .next t →
    ∀ c ∈ t.slices, c.rs.bitCount.toNat ≤ 25 ∧
      (c.out.finStrobe = true → c.out.finCause ≠ .overrun)

/-- R106: along a run without reset, the frames opened and the frame open at the start are as many
as the notifications made and the frame open at the end: each frame ends in exactly one
notification. -/
def Obligations.OneNotificationPerFrame : Prop :=
  ∀ (k : Nat) (s t : State) (r : Nat), s.Inv → runSteps k s = .next t →
    (∀ j, j < k → s.rstAt j = false) →
    framesOpened r k s + (s.isOpen r).toNat = notificationsMade r k s + (t.isOpen r).toNat

/-- R84 (with R91 and R134): a stretch without bits in which fewer ticks come than the counter holds
leaves the frame as it is and takes the ticks off the counter. With no tick at all the frame stays
Open for ever. -/
def Obligations.FrameSurvivesShortGap : Prop :=
  ∀ (s : State) (r : Nat) (c : Slice) (gap : List Bool), s.slices[r]? = some c →
    c.tm.armed = true → ticksIn gap < c.tm.count →
    ∃ t c', runEvents (gapEvents r gap) s = .next t ∧ t.slices[r]? = some c' ∧
      c'.rs = c.rs ∧ c'.tm = ⟨true, c.tm.count - ticksIn gap⟩ ∧
      c'.out = if gap = [] then c.out else { c.out with finStrobe := false }

/-- R84: the tick that uses up the counter, after any NOPs and earlier ticks, times the frame
out. -/
def Obligations.FrameTimesOutOnLastTick : Prop :=
  ∀ (s : State) (r : Nat) (c : Slice) (gap : List Bool), s.slices[r]? = some c →
    c.tm.armed = true → c.rs.bitCount ≠ 0 → ticksIn gap + 1 = c.tm.count →
    ∃ t c', runEvents (gapEvents r gap ++ [.tick r]) s = .next t ∧ t.slices[r]? = some c' ∧
      c'.rs = { c.rs with bitCount := 0 } ∧ c'.tm = ⟨false, 0⟩ ∧
      c'.out = ⟨true, false, .incomplete, false, false, c.rs.facilityCode, c.rs.cardCode,
        c.rs.fullCode⟩

/-- R88: with ticks every `P`, the first of them at time `f` within `P` after a bit at time `b`, the
tick after which the reader shows its timeout is later than `b` by more than
`(TIMEOUT_TICKS - 1) * P` and at most `TIMEOUT_TICKS * P`. It measures up to the tick: the at most one
`clk` period that R88 adds is left out (assumption 13, DESIGN CHOICE). Times and the period are whole
numbers of a unit that is not named: the model's choice (assumption 18, DESIGN CHOICE). -/
def Obligations.TimeoutInRealTime : Prop :=
  ∀ (s : State) (r : Nat) (v : Bool) (c : Slice) (P b f k : Nat) (gap : List Bool),
    s.slices[r]? = some c → c.rs.bitCount.toNat ≤ 24 → 1 ≤ s.timeoutTicks →
    b < f → f ≤ b + P → ticksIn gap = k →
    ∀ t c', runEvents (.ofBit r v :: (gapEvents r gap ++ [.tick r])) s = .next t →
      t.slices[r]? = some c' → c'.out.finStrobe = true →
      k + 1 = s.timeoutTicks ∧
      b + (s.timeoutTicks - 1) * P < f + k * P ∧ f + k * P ≤ b + s.timeoutTicks * P

/-- R14, R23.4, R23.5: from any Idle reader, `k` bits (1 to 25) whose gaps stay short leave exactly
them in the Reader State, the frame Open and the other readers as they were. -/
def Obligations.PartialFrameContents : Prop :=
  ∀ (s : State) (r : Nat) (c : Slice) (bits : List (Bool × List Bool)),
    s.slices[r]? = some c → c.rs.bitCount = 0 → 1 ≤ bits.length → bits.length ≤ 25 →
    gapPremise s.timeoutTicks bits →
    let bs := bits.map Prod.fst
    ∃ t c', runEvents (spacedBits r bits) s = .next t ∧ t.slices = s.slices.set r c' ∧
      c'.rs.bitCount.toNat = bits.length ∧
      some c'.rs.leadingParityBit = bs.head? ∧
      c'.rs.facilityCode.toNat = bitsValue ((bs.drop 1).take 8) ∧
      c'.rs.cardCode.toNat = bitsValue (bs.drop 9) ∧
      c'.rs.parity0Sum.toNat = ((bs.drop 1).take 12).count true ∧
      c'.rs.parity1Sum.toNat = (bs.drop 13).count true ∧
      c'.rs.fullCode = 0 ∧ c'.rs.trailingParityBit = false ∧ c'.rs.codeValid = false ∧
      c'.tm.armed = true ∧ c'.out.finStrobe = false

/-- R68, R75: from any Idle reader, whatever it held, the 26 bits of any frame, each but the last
followed by a short gap, are reported in the step of the last: the fields position by position,
each fail flag exactly when its parity fails, valid exactly when both hold. -/
def Obligations.CompletedFrameReport : Prop :=
  ∀ (s : State) (r : Nat) (c : Slice) (bits : List (Bool × List Bool)) (last : Bool),
    s.slices[r]? = some c → c.rs.bitCount = 0 → bits.length = 25 →
    gapPremise s.timeoutTicks bits →
    let bs := bits.map Prod.fst ++ [last]
    let evenFail := (bs.take 13).count true % 2 == 1
    let oddFail := (bs.drop 13).count true % 2 == 0
    ∃ t c', runEvents (spacedBits r bits ++ [.ofBit r last]) s = .next t ∧
      t.slices = s.slices.set r c' ∧
      c'.rs.bitCount = 0 ∧ c'.tm = ⟨false, 0⟩ ∧
      some c'.rs.leadingParityBit = bs.head? ∧ c'.rs.trailingParityBit = last ∧
      c'.rs.parity0Sum.toNat = ((bs.drop 1).take 12).count true ∧
      c'.rs.parity1Sum.toNat = ((bs.drop 13).take 12).count true ∧
      c'.out.finStrobe = true ∧
      c'.out.finFacility.toNat = bitsValue ((bs.drop 1).take 8) ∧
      c'.out.finCard.toNat = bitsValue ((bs.drop 9).take 16) ∧
      c'.out.finFull.toNat = c'.out.finFacility.toNat * 2 ^ 16 + c'.out.finCard.toNat ∧
      c'.out.finEvenFail = evenFail ∧ c'.out.finOddFail = oddFail ∧
      c'.out.finOk = (!evenFail && !oddFail) ∧
      c'.out.finCause = if evenFail || oddFail then .parity else .none

/-- R45, R102: the well-formed frame of a facility code and a card code, sent to any Idle reader with
short gaps, is forwarded as the result with that reader's id and those codes. -/
def Obligations.WellFormedFrameIsForwarded : Prop :=
  ∀ (s : State) (r : Nat) (c : Slice) (bits : List (Bool × List Bool)) (last : Bool)
    (fac : FacilityCode) (card : CardCode),
    s.slices[r]? = some c → c.rs.bitCount = 0 →
    bits.map Prod.fst ++ [last] = frameBitsOf (w26 fac card) →
    gapPremise s.timeoutTicks bits →
    ∃ t, runEvents (spacedBits r bits ++ [.ofBit r last]) s = .next t ∧
      t.result? r = some ⟨r, fac, card, fac ++ card⟩

/-- R111, R85, R134: from any Idle reader, a frame of fewer than 26 bits whose last bit is followed
by `TIMEOUT_TICKS` ticks before any other bit is reported INCOMPLETE, never valid, and the reader
is Idle again, ready for the next frame. -/
def Obligations.ShortFrameEndsIncomplete : Prop :=
  ∀ (s : State) (r : Nat) (c : Slice) (bits : List (Bool × List Bool)) (last : Bool)
    (gap : List Bool),
    s.slices[r]? = some c → c.rs.bitCount = 0 → bits.length ≤ 24 →
    gapPremise s.timeoutTicks bits → ticksIn gap + 1 = s.timeoutTicks →
    let bs := bits.map Prod.fst ++ [last]
    ∃ t c', runEvents (spacedBits r (bits ++ [(last, gap)]) ++ [.tick r]) s = .next t ∧
      t.slices = s.slices.set r c' ∧
      c'.rs.bitCount = 0 ∧ c'.tm = ⟨false, 0⟩ ∧
      c'.out.finStrobe = true ∧ c'.out.finOk = false ∧ c'.out.finCause = .incomplete ∧
      c'.out.finEvenFail = false ∧ c'.out.finOddFail = false ∧
      c'.out.finFacility.toNat = bitsValue ((bs.drop 1).take 8) ∧
      c'.out.finCard.toNat = bitsValue (bs.drop 9) ∧
      c'.out.finFull = 0 ∧ t.result? r = none
end

