-- ==== Sys2Proof/Laws/State.lean ====
section
/-! SUPPORT. One lemma a field and an update, true by `rfl`: later proofs unfold no record update. -/

namespace Sys2Proof.Machine

variable (s : State) (r : Nat) (c : Slice)

@[simp] theorem setReader_tw : (s.setReader r c).tw = s.tw := rfl
@[simp] theorem setReader_timeoutTicks : (s.setReader r c).timeoutTicks = s.timeoutTicks := rfl
@[simp] theorem setReader_input : (s.setReader r c).input = s.input := rfl
@[simp] theorem setReader_schedule : (s.setReader r c).schedule = s.schedule := rfl
@[simp] theorem setReader_slices : (s.setReader r c).slices = s.slices.set r c := rfl

@[simp] theorem clearStrobe_rs : (clearStrobe c).rs = c.rs := rfl
@[simp] theorem clearStrobe_tm : (clearStrobe c).tm = c.tm := rfl
@[simp] theorem clearStrobe_out : (clearStrobe c).out = { c.out with finStrobe := false } := rfl

@[simp] theorem finalize_rs (k : Cause) (e o : Bool) : (finalize k e o c).rs = c.rs := rfl
@[simp] theorem finalize_tm (k : Cause) (e o : Bool) : (finalize k e o c).tm = c.tm := rfl
@[simp] theorem finalize_finStrobe (k : Cause) (e o : Bool) :
    (finalize k e o c).out.finStrobe = true := rfl
@[simp] theorem finalize_finOk (k : Cause) (e o : Bool) :
    (finalize k e o c).out.finOk = (c.rs.codeValid && decide (k = .none)) := rfl
@[simp] theorem finalize_finCause (k : Cause) (e o : Bool) :
    (finalize k e o c).out.finCause = k := rfl
@[simp] theorem finalize_finEvenFail (k : Cause) (e o : Bool) :
    (finalize k e o c).out.finEvenFail = e := rfl
@[simp] theorem finalize_finOddFail (k : Cause) (e o : Bool) :
    (finalize k e o c).out.finOddFail = o := rfl
@[simp] theorem finalize_finFacility (k : Cause) (e o : Bool) :
    (finalize k e o c).out.finFacility = c.rs.facilityCode := rfl
@[simp] theorem finalize_finCard (k : Cause) (e o : Bool) :
    (finalize k e o c).out.finCard = c.rs.cardCode := rfl
@[simp] theorem finalize_finFull (k : Cause) (e o : Bool) :
    (finalize k e o c).out.finFull = c.rs.fullCode := rfl

@[simp] theorem toIdle_rs : (toIdle c).rs = { c.rs with bitCount := 0 } := rfl
@[simp] theorem lifecycle_toIdle : lifecycle (toIdle c).rs = .idle := rfl
@[simp] theorem toIdle_tm : (toIdle c).tm = c.tm := rfl
@[simp] theorem toIdle_out : (toIdle c).out = c.out := rfl

@[simp] theorem timerRearm_rs (T : Nat) : (timerRearm T c).rs = c.rs := rfl
@[simp] theorem timerRearm_tm (T : Nat) : (timerRearm T c).tm = ⟨true, T⟩ := rfl
@[simp] theorem timerRearm_out (T : Nat) : (timerRearm T c).out = c.out := rfl

@[simp] theorem timerDisarm_rs : (timerDisarm c).rs = c.rs := rfl
@[simp] theorem timerDisarm_tm : (timerDisarm c).tm = ⟨false, 0⟩ := rfl
@[simp] theorem timerDisarm_out : (timerDisarm c).out = c.out := rfl

@[simp] theorem config_nReaders : s.config.nReaders = s.slices.length := rfl
@[simp] theorem config_tw : s.config.tw = s.tw := rfl
@[simp] theorem config_timeoutTicks : s.config.timeoutTicks = s.timeoutTicks := rfl

@[simp] theorem advanceInput_tw : s.advanceInput.tw = s.tw := by
  unfold State.advanceInput; split <;> rfl
@[simp] theorem advanceInput_timeoutTicks : s.advanceInput.timeoutTicks = s.timeoutTicks := by
  unfold State.advanceInput; split <;> rfl
@[simp] theorem advanceInput_slices : s.advanceInput.slices = s.slices := by
  unfold State.advanceInput; split <;> rfl

/-- The next cycle's inputs: the head of the schedule, or all strobes low (assumption 2). -/
theorem advanceInput_eq :
    s.advanceInput =
      { s with
        input := s.schedule.headD ⟨0, s.input.cfgTrace⟩
        schedule := s.schedule.tail } := by
  cases h : s.schedule <;> simp [State.advanceInput, h]

@[simp] theorem resetReader_eq_zero : resetReader c = Slice.zero := rfl

end Sys2Proof.Machine
end

