-- ==== Sys2Proof/Laws/Ops.lean ====
section
/-! SUPPORT. What the shared operations do: reaching a reader's slice, shifting and counting a bit, the
saturating increment. -/

namespace Sys2Proof.Machine

/-- An event reaches a reader the block has. -/
theorem onReader_present {s : State} {r : Nat} {c : Slice} (f : Slice → Slice)
    (h : s.slices[r]? = some c) : s.onReader r f = .next (s.setReader r (f c)) := by
  simp [State.onReader, State.reader?, h]

/-- An event of a reader the block does not have is refused. -/
theorem onReader_absent {s : State} {r : Nat} (f : Slice → Slice) (h : s.slices[r]? = none) :
    s.onReader r f = .refused (.noSuchReader r) := by
  simp [State.onReader, State.reader?, h]

/-- All that `onReader` can answer with a next state. -/
theorem onReader_next_iff {s t : State} {r : Nat} {f : Slice → Slice} :
    s.onReader r f = .next t ↔ ∃ c, s.slices[r]? = some c ∧ t = s.setReader r (f c) := by
  cases h : s.slices[r]? with
  | none => simp [onReader_absent f h]
  | some c => simp [onReader_present f h, eq_comm]

/-- Shifting a bit in doubles the field and adds the bit, as long as no bit is lost. -/
theorem shiftIn_toNat {w : Nat} (f : BitVec w) (v : Bool) (h : 2 * f.toNat + 1 < 2 ^ w) :
    (shiftIn f v).toNat = 2 * f.toNat + v.toNat := by
  have hv : v.toNat < 2 ^ w := by
    rcases w with _ | w
    · simp at h
    · have := Nat.pow_le_pow_right (n := 2) (by omega) (show 1 ≤ w + 1 by omega)
      cases v <;> simp
  have h2 : f.toNat <<< 1 % 2 ^ w = 2 ^ 1 * f.toNat := by
    rw [Nat.shiftLeft_eq, Nat.mul_comm, Nat.mod_eq_of_lt]; omega
  simp only [shiftIn, BitVec.toNat_or, BitVec.toNat_shiftLeft, BitVec.toNat_setWidth,
    BitVec.toNat_ofBool, Nat.mod_eq_of_lt hv, h2]
  rw [← Nat.two_pow_add_eq_or_of_lt (by cases v <;> decide)]

/-- Adding a bit to a sum that is not at its largest value counts it. -/
theorem addBit_toNat (x : ParitySum) (v : Bool) (h : x.toNat + 1 < 16) :
    (addBit x v).toNat = x.toNat + v.toNat := by
  cases v
  · simp [addBit]
  · simp [addBit, BitVec.toNat_add]; omega

/-- Below position 25 the saturating increment adds one (40_frame_accumulator.md R67). -/
theorem bumpCount_toNat (p : Position) (h : p.toNat ≤ 24) :
    (bumpCount p).toNat = p.toNat + 1 := by
  simp only [bumpCount, maxBits, BitVec.toNat_ofNat]; omega

/-- The same, as an addition. -/
theorem bumpCount_eq_add_one (p : Position) (h : p.toNat ≤ 24) : bumpCount p = p + 1 := by
  apply BitVec.eq_of_toNat_eq
  rw [bumpCount_toNat p h, BitVec.toNat_add]
  simp; omega

/-- The bit shifted in, written as the spec writes it. -/
theorem shiftIn_eq_ite {w : Nat} (f : BitVec w) (v : Bool) :
    shiftIn f v = (f <<< 1) ||| (if v then 1 else 0) := by
  cases v <;> simp [shiftIn]
  apply BitVec.eq_of_toNat_eq; simp

/-- The bit added, written as the spec writes it. -/
theorem addBit_eq_ite (x : ParitySum) (v : Bool) : addBit x v = x + (if v then 1 else 0) := by
  cases v <;> rfl

end Sys2Proof.Machine
end

