-- ==== Sys2Proof/Laws/Accumulator.lean ====
section
/-! SUPPORT. What a bit does to a slice, position by position: `bitReader` at each range of `bit_count`,
so that no later proof unfolds the router or the accumulator. -/

namespace Sys2Proof.Machine

variable {T : Nat} {v : Bool} {c : Slice}

/-- Below position 25 the timer stays armed after the bit. -/
theorem bitReader_below_25 (h : c.rs.bitCount.toNat < 25) :
    bitReader T v c = ingestBit v (timerRearm T (clearStrobe c)) := by
  simp [bitReader, route, Nat.not_le.mpr h]

/-- From position 25 on the timer is disarmed after the bit. -/
theorem bitReader_from_25 (h : 25 ≤ c.rs.bitCount.toNat) :
    bitReader T v c = timerDisarm (ingestBit v (timerRearm T (clearStrobe c))) := by
  simp [bitReader, route, h]

theorem bitReader_start (h : c.rs.bitCount.toNat = 0) :
    bitReader T v c = acceptStart v (timerRearm T (clearStrobe c)) := by
  rw [bitReader_below_25 (by omega)]; simp [ingestBit, h]

theorem bitReader_facility (h : 1 ≤ c.rs.bitCount.toNat) (h' : c.rs.bitCount.toNat ≤ 8) :
    bitReader T v c = acceptFacility v (timerRearm T (clearStrobe c)) := by
  rw [bitReader_below_25 (by omega)]
  simp [ingestBit, show c.rs.bitCount.toNat ≠ 0 by omega, h']

theorem bitReader_cardEven (h : 9 ≤ c.rs.bitCount.toNat) (h' : c.rs.bitCount.toNat ≤ 12) :
    bitReader T v c = acceptCardEven v (timerRearm T (clearStrobe c)) := by
  rw [bitReader_below_25 (by omega)]
  simp [ingestBit, show c.rs.bitCount.toNat ≠ 0 by omega,
    show ¬c.rs.bitCount.toNat ≤ 8 by omega, h']

theorem bitReader_cardOdd (h : 13 ≤ c.rs.bitCount.toNat) (h' : c.rs.bitCount.toNat ≤ 24) :
    bitReader T v c = acceptCardOdd v (timerRearm T (clearStrobe c)) := by
  rw [bitReader_below_25 (by omega)]
  simp [ingestBit, show c.rs.bitCount.toNat ≠ 0 by omega,
    show ¬c.rs.bitCount.toNat ≤ 8 by omega, show ¬c.rs.bitCount.toNat ≤ 12 by omega, h']

theorem bitReader_trailing (h : c.rs.bitCount.toNat = 25) :
    bitReader T v c = timerDisarm (acceptTrailing v (timerRearm T (clearStrobe c))) := by
  rw [bitReader_from_25 (by omega)]; simp [ingestBit, h]

theorem bitReader_overrun (h : 26 ≤ c.rs.bitCount.toNat) :
    bitReader T v c = timerDisarm (overrun (timerRearm T (clearStrobe c))) := by
  rw [bitReader_from_25 (by omega)]
  simp [ingestBit, show c.rs.bitCount.toNat ≠ 0 by omega,
    show ¬c.rs.bitCount.toNat ≤ 8 by omega, show ¬c.rs.bitCount.toNat ≤ 12 by omega,
    show ¬c.rs.bitCount.toNat ≤ 24 by omega, show c.rs.bitCount.toNat ≠ 25 by omega]

/-- The cause a completion reports is NONE exactly when the verdict is good (R65), so `fin_ok` is the
verdict. -/
theorem completion_finOk (ok : Bool) : (ok && decide (completionCause ok = .none)) = ok := by
  cases ok <;> rfl

@[simp] theorem completionCause_true : completionCause true = .none := rfl
@[simp] theorem completionCause_false : completionCause false = .parity := rfl

/-- Completion writes the verdict it reports: `validate` reads neither `code_valid` nor
`full_code` (R65, R72). -/
theorem completeFrame_codeValid (rs : ReaderState) :
    (completeFrame v rs).codeValid = (validate (completeFrame v rs)).ok := rfl

/-- Position 25 as one record: `fin_ok` is the verdict (R65, R100). -/
theorem acceptTrailing_eq :
    acceptTrailing v c =
      { rs := { completeFrame v c.rs with bitCount := 0 }
        tm := c.tm
        out :=
          { finStrobe := true
            finOk := (validate (completeFrame v c.rs)).ok
            finCause := completionCause (validate (completeFrame v c.rs)).ok
            finEvenFail := (validate (completeFrame v c.rs)).evenFail
            finOddFail := (validate (completeFrame v c.rs)).oddFail
            finFacility := c.rs.facilityCode
            finCard := c.rs.cardCode
            finFull := c.rs.facilityCode ++ c.rs.cardCode } } := by
  have h := completion_finOk (validate (completeFrame v c.rs)).ok
  simp only [acceptTrailing, toIdle, finalize, completeFrame_codeValid, h]
  rfl

/-- The six ranges of R60, as one case analysis. -/
theorem position_cases (p : Position) :
    p.toNat = 0 ∨ (1 ≤ p.toNat ∧ p.toNat ≤ 8) ∨ (9 ≤ p.toNat ∧ p.toNat ≤ 12) ∨
      (13 ≤ p.toNat ∧ p.toNat ≤ 24) ∨ p.toNat = 25 ∨ 26 ≤ p.toNat := by omega

/-- The two checks fail or pass as the verdict's flags say (R72). -/
theorem validate_ok (rs : ReaderState) :
    (validate rs).ok = (!(validate rs).evenFail && !(validate rs).oddFail) := by
  simp [validate]

end Sys2Proof.Machine
end

