-- ==== Sys2Proof/Laws/Bits.lean ====
section
/-! SUPPORT. Counting and reading bits: `onesBelow` and `bitsValue` under shifting a bit in. -/

namespace Sys2Proof.Machine

/-- There are at most `k` ones among `k` bits. -/
theorem onesBelow_le (k v : Nat) : onesBelow k v ≤ k := by
  induction k with
  | zero => simp [onesBelow]
  | succ k ih => simp only [onesBelow]; have := Bool.toNat_le (v.testBit k); omega

@[simp] theorem onesBelow_zero (v : Nat) : onesBelow 0 v = 0 := rfl

@[simp] theorem onesBelow_zero_right (k : Nat) : onesBelow k 0 = 0 := by
  induction k with
  | zero => rfl
  | succ k ih => simp [onesBelow, ih]

/-- A bit shifted in at the low end is one more bit to count. -/
theorem onesBelow_shiftIn (k v : Nat) (b : Bool) :
    onesBelow (k + 1) (2 * v + b.toNat) = onesBelow k v + b.toNat := by
  induction k with
  | zero => cases b <;> simp [onesBelow, Nat.testBit_zero, Nat.add_mod]
  | succ k ih =>
    rw [onesBelow, ih, onesBelow]
    have : (2 * v + b.toNat).testBit (k + 1) = v.testBit k := by
      rw [Nat.testBit_succ]; congr 1; have := Bool.toNat_lt b; omega
    rw [this]; omega

/-- Bits above the highest one count nothing. -/
theorem onesBelow_of_lt {k v : Nat} (h : v < 2 ^ k) : onesBelow (k + 1) v = onesBelow k v := by
  simp [onesBelow, Nat.testBit_lt_two_pow h]

/-- A bit shifted into a field that has room for it is counted. -/
theorem onesBelow_shiftIn_of_lt (k v : Nat) (b : Bool) (h : 2 * v + b.toNat < 2 ^ k) :
    onesBelow k (2 * v + b.toNat) = onesBelow k v + b.toNat := by
  rw [← onesBelow_of_lt h, onesBelow_shiftIn]

/-- Shifting right undoes shifting a bit in. -/
theorem shiftIn_shiftRight (v k : Nat) (b : Bool) :
    (2 * v + b.toNat) >>> (k + 1) = v >>> k := by
  rw [Nat.shiftRight_succ_inside]
  congr 1
  have := Bool.toNat_lt b
  omega

/-- One more bit at the end of a list of bits. -/
theorem bitsValue_append (bs : List Bool) (b : Bool) :
    bitsValue (bs ++ [b]) = 2 * bitsValue bs + b.toNat := by
  simp [bitsValue]

/-- A list of `k` bits has a value below `2^k`. -/
theorem bitsValue_lt (bs : List Bool) : bitsValue bs < 2 ^ bs.length := by
  induction bs using List.reverseRecOn with
  | nil => simp [bitsValue]
  | append_singleton bs b ih =>
    rw [bitsValue_append]
    simp only [List.length_append, List.length_cons, List.length_nil, Nat.pow_succ]
    have := Bool.toNat_le b
    omega

end Sys2Proof.Machine
end

