-- ==== Sys2Proof/Laws/Decode.lean ====
section
/-! SUPPORT. The bits of event codes and step words, and what the decoder answers. -/

namespace Sys2Proof

theorem eventBits_bit3 (a b c d : Bool) : (eventBits a b c d).getLsbD 3 = a := by
  revert a b c d; decide
@[simp] theorem eventBits_getElem3 (a b c d : Bool) : (eventBits a b c d)[3] = a :=
  eventBits_bit3 a b c d
theorem eventBits_bit2 (a b c d : Bool) : (eventBits a b c d).getLsbD 2 = b := by
  revert a b c d; decide
@[simp] theorem eventBits_getElem2 (a b c d : Bool) : (eventBits a b c d)[2] = b :=
  eventBits_bit2 a b c d
theorem eventBits_bit1 (a b c d : Bool) : (eventBits a b c d).getLsbD 1 = c := by
  revert a b c d; decide
@[simp] theorem eventBits_getElem1 (a b c d : Bool) : (eventBits a b c d)[1] = c :=
  eventBits_bit1 a b c d
theorem eventBits_bit0 (a b c d : Bool) : (eventBits a b c d).getLsbD 0 = d := by
  revert a b c d; decide
@[simp] theorem eventBits_getElem0 (a b c d : Bool) : (eventBits a b c d)[0] = d :=
  eventBits_bit0 a b c d

/-- The event of a code, from its four bits. -/
theorem decodeEvent_eventBits (r : Nat) (a b c d : Bool) :
    decodeEvent r (eventBits a b c d) =
      if a then .reset
      else if c && d then .collide r
      else if c || d then .ofBit r c
      else if b then .tick r
      else .nop r := by
  simp only [decodeEvent, bitValue, eventBits_bit3, eventBits_bit2, eventBits_bit1, eventBits_bit0]

/-- An event decoded for reader `r` names `r`, or is RESET. -/
theorem decodeEvent_reader (r : Nat) (e : EventCode) :
    decodeEvent r e = .reset ∨ (decodeEvent r e).reader? = some r := by
  unfold decodeEvent Instr.ofBit
  split
  · exact .inl rfl
  · right; split
    · rfl
    · split
      · split <;> rfl
      · split <;> rfl

/-- With `rst` low no reader's event is RESET. -/
theorem decodeEvent_ne_reset (r : Nat) (e : EventCode) (h : e.getLsbD 3 = false) :
    (decodeEvent r e).reader? = some r := by
  refine (decodeEvent_reader r e).resolve_left fun h' => ?_
  revert h'
  unfold decodeEvent Instr.ofBit
  simp only [h]
  repeat' split
  all_goals simp_all

/-- All that the decoder can answer for a step word. -/
theorem decodeStep_cases (n S : Nat) :
    (2 ^ (2 * n + 2) ≤ S ∧ decodeStep n S = .rejected .wordTooWide) ∨
    (S < 2 ^ (2 * n + 2) ∧ S.testBit (2 * n + 1) = true ∧ decodeStep n S = .events [.reset]) ∨
    (S < 2 ^ (2 * n + 2) ∧ S.testBit (2 * n + 1) = false ∧
      decodeStep n S =
        .events ((List.range n).map fun r => decodeEvent r (eventCode n S r))) := by
  unfold decodeStep
  by_cases h : S < 2 ^ (2 * n + 2)
  · cases h' : S.testBit (2 * n + 1) <;> simp [h]
  · simp [h]; omega

/-- The bits of the part one code has in a step word. -/
theorem placeCode_testBit (n r : Nat) (e : EventCode) (k : Nat) :
    (placeCode n r e).testBit k =
      ((e.getLsbD 3 && k == 2 * n + 1) || (e.getLsbD 2 && k == 2 * n) ||
        (e.getLsbD 1 && k == 2 * r + 1) || (e.getLsbD 0 && k == 2 * r)) := by
  have aux : ∀ (b : Bool) (m : Nat), (b.toNat <<< m).testBit k = (b && k == m) := by
    intro b m
    cases b with
    | false => simp
    | true =>
      rw [Bool.toNat_true, Nat.one_shiftLeft, Nat.testBit_two_pow]
      by_cases h : m = k
      · simp [h]
      · simp [h, Ne.symm h]
  simp only [placeCode, Nat.testBit_or, aux]

/-- A bit of the step word of a list of events is the disjunction of their parts. -/
theorem encodeStep_testBit (n : Nat) (es : List Instr) (k : Nat) :
    (encodeStep n es).testBit k = es.any fun i => (encodeInstr n i).testBit k := by
  induction es with
  | nil => simp [encodeStep]
  | cons i es ih =>
    simp only [encodeStep, List.foldr_cons, Nat.testBit_or, List.any_cons] at ih ⊢
    rw [ih]

end Sys2Proof
end

