-- ==== Sys2Proof/Laws/Timer.lean ====
section
/-! SUPPORT. What a TICK does to a slice, in the four cases of 42_frame_timer.md R84 to R86. -/

namespace Sys2Proof.Machine

variable {c : Slice}

theorem tickReader_disarmed (h : c.tm.armed = false) : tickReader c = clearStrobe c := by
  simp [tickReader, timerStep, h]

theorem tickReader_counts (h : c.tm.armed = true) (h' : 2 ≤ c.tm.count) :
    tickReader c = { clearStrobe c with tm := ⟨true, c.tm.count - 1⟩ } := by
  simp [tickReader, timerStep, h, show ¬c.tm.count ≤ 1 by omega]

theorem tickReader_times_out (h : c.tm.armed = true) (h' : c.tm.count ≤ 1)
    (hb : c.rs.bitCount ≠ 0) :
    tickReader c = toIdle (finalize .incomplete false false (timerDisarm (clearStrobe c))) := by
  have : c.rs.bitCount ≠ 0#6 := hb
  simp [tickReader, timerStep, expire, h, h', this]

theorem tickReader_expires_idle (h : c.tm.armed = true) (h' : c.tm.count ≤ 1)
    (hb : c.rs.bitCount = 0) : tickReader c = timerDisarm (clearStrobe c) := by
  simp [tickReader, timerStep, expire, h, h', hb]

end Sys2Proof.Machine
end

