-- ==== Sys2Proof/Laws/Events.lean ====
section
/-! SUPPORT. All that an event, a list of events and a step can do when they answer a next state. -/

namespace Sys2Proof.Machine

/-- An event of a reader, as an operation on the reader's slice. -/
theorem exec_of_reader {i : Instr} {r : Nat} (hi : i.reader? = some r) (hc : i ≠ .collide r)
    (s : State) : exec i s = s.onReader r (reactTo s.timeoutTicks i) := by
  cases i <;> simp_all [Instr.reader?] <;> rfl

/-- COLLIDE answers no next state. -/
theorem exec_collide_ne_next (r : Nat) (s t : State) : exec (.collide r) s ≠ .next t := by
  intro h; simp [exec, execCollide] at h

/-- All that an event can do: RESET reaches every slice, any other event the slice of its reader. -/
theorem exec_next_cases {i : Instr} {s t : State} (h : exec i s = .next t) :
    (i = .reset ∧ t = { s with slices := s.slices.map resetReader }) ∨
    ∃ r c, i.reader? = some r ∧ s.slices[r]? = some c ∧
      t = s.setReader r (reactTo s.timeoutTicks i c) := by
  cases i with
  | reset => left; simpa [exec, execReset, eq_comm] using h
  | collide r => exact absurd h (exec_collide_ne_next r s t)
  | nop r => exact .inr ⟨r, (onReader_next_iff.mp h).imp fun _ h => ⟨rfl, h⟩⟩
  | tick r => exact .inr ⟨r, (onReader_next_iff.mp h).imp fun _ h => ⟨rfl, h⟩⟩
  | bit0 r => exact .inr ⟨r, (onReader_next_iff.mp h).imp fun _ h => ⟨rfl, h⟩⟩
  | bit1 r => exact .inr ⟨r, (onReader_next_iff.mp h).imp fun _ h => ⟨rfl, h⟩⟩

/-- A bit of value `v`, whatever `v`. -/
theorem exec_ofBit (r : Nat) (v : Bool) (s : State) :
    exec (.ofBit r v) s = s.onReader r (bitReader s.timeoutTicks v) := by
  cases v <;> rfl

/-- Only the events themselves decide a run of events. -/
theorem runEvents_append (l l' : List Instr) (s : State) :
    runEvents (l ++ l') s =
      match runEvents l s with
      | .next t => runEvents l' t
      | .fault f => .fault f
      | .refused why => .refused why := by
  induction l generalizing s with
  | nil => rfl
  | cons i l ih =>
    simp only [List.cons_append, runEvents]
    cases exec i s with
    | next t => exact ih t
    | fault f => rfl
    | refused why => rfl

/-- All that a step can do when it answers a next state. -/
theorem step_next_cases {s t : State} (h : step s = .next t) :
    s.config.Legal ∧ s.input.word < 2 ^ (2 * s.slices.length + 2) ∧
    ((s.input.word.testBit (2 * s.slices.length + 1) = true ∧
        exec .reset s.advanceInput = .next t) ∨
      (s.input.word.testBit (2 * s.slices.length + 1) = false ∧
        runEvents ((List.range s.slices.length).map fun r => decodeEvent r (s.codeOf r))
          s.advanceInput = .next t)) := by
  unfold step State.decodeInput at h
  split at h
  · rename_i hl
    refine ⟨hl, ?_⟩
    obtain ⟨h1, h2⟩ | ⟨h1, h2, h3⟩ | ⟨h1, h2, h3⟩ :=
      decodeStep_cases s.slices.length s.input.word
    · simp [h2] at h
    · rw [h3] at h
      refine ⟨h1, .inl ⟨h2, ?_⟩⟩
      simp only [runEvents] at h
      split at h <;> simp_all
    · rw [h3] at h
      exact ⟨h1, .inr ⟨h2, h⟩⟩
  · simp at h

end Sys2Proof.Machine
end

