-- ==== Sys2Proof/Laws/Invariant.lean ====
section
/-! SUPPORT. The slice invariant of 10_state.md R23 under each thing that can happen to a slice. -/

namespace Sys2Proof.Machine

/-- A slice at its reset values has the invariant (R22). -/
theorem zero_inv (T : Nat) : Slice.zero.Inv T := by
  constructor <;> simp [Slice.zero]

/-- The invariant does not look at the data of the output register while its strobe is low. -/
theorem clearStrobe_inv {T : Nat} {c : Slice} (h : c.Inv T) : (clearStrobe c).Inv T where
  count_le := h.count_le
  armed_iff := h.armed_iff
  armed_count := h.armed_count
  disarmed_count := h.disarmed_count
  open_clear := h.open_clear
  sums_le := h.sums_le
  open_fields := h.open_fields
  open_sum0 := h.open_sum0
  open_sum1 := h.open_sum1
  strobe_idle := by simp
  strobe_ok := by simp

/-- A reader that is Idle with no timer pending has the invariant as soon as its sums are in range
and its notification, if any, is consistent. -/
theorem idle_inv {T : Nat} {c : Slice} (hb : c.rs.bitCount.toNat = 0) (ht : c.tm = ⟨false, 0⟩)
    (hs : c.rs.parity0Sum.toNat ≤ 12 ∧ c.rs.parity1Sum.toNat ≤ 12)
    (ho : c.out.finStrobe = true →
      (c.out.finOk = true ↔ c.out.finCause = .none) ∧ c.out.finCause ≠ .overrun) : c.Inv T := by
  constructor <;> simp_all

/-- What is left to show of a reader whose frame is Open after a bit. -/
theorem open_inv {T : Nat} {c : Slice} (hT : 1 ≤ T) (hb : 1 ≤ c.rs.bitCount.toNat)
    (hb' : c.rs.bitCount.toNat ≤ 25) (ht : c.tm = ⟨true, T⟩) (hs : c.out.finStrobe = false)
    (hc : c.rs.codeValid = false ∧ c.rs.fullCode = 0 ∧ c.rs.trailingParityBit = false)
    (hf : c.rs.facilityCode.toNat < 2 ^ (c.rs.bitCount.toNat - 1) ∧
      c.rs.cardCode.toNat < 2 ^ (c.rs.bitCount.toNat - 9))
    (h0 : c.rs.parity0Sum.toNat =
      onesBelow 8 c.rs.facilityCode.toNat +
        onesBelow 4 (c.rs.cardCode.toNat >>> (c.rs.bitCount.toNat - 13)))
    (h1 : c.rs.parity1Sum.toNat =
      onesBelow (c.rs.bitCount.toNat - 13) c.rs.cardCode.toNat) : c.Inv T where
  count_le := hb'
  armed_iff := by simp [ht, hb]
  armed_count := by simp [ht, hT]
  disarmed_count := by simp [ht]
  open_clear := fun _ => hc
  sums_le := by
    have := onesBelow_le 8 c.rs.facilityCode.toNat
    have := onesBelow_le 4 (c.rs.cardCode.toNat >>> (c.rs.bitCount.toNat - 13))
    have := onesBelow_le (c.rs.bitCount.toNat - 13) c.rs.cardCode.toNat
    omega
  open_fields := fun _ => hf
  open_sum0 := fun _ => h0
  open_sum1 := fun _ => h1
  strobe_idle := by simp [hs]
  strobe_ok := by simp [hs]

/-- A bit shifted into a field of `2^k` values with room below `2^w`. -/
theorem shiftIn_lt {w k : Nat} (f : BitVec w) (v : Bool) (h : f.toNat < 2 ^ k) (hk : k < w) :
    (shiftIn f v).toNat = 2 * f.toNat + v.toNat ∧ 2 * f.toNat + v.toNat < 2 ^ (k + 1) := by
  have h1 : 2 ^ (k + 1) ≤ 2 ^ w := Nat.pow_le_pow_right (by omega) hk
  have h2 : 2 ^ (k + 1) = 2 * 2 ^ k := by rw [Nat.pow_succ]; omega
  have := Bool.toNat_le v
  exact ⟨shiftIn_toNat f v (by omega), by omega⟩

/-- A bit keeps the invariant (R23), position by position. -/
theorem bitReader_inv {T : Nat} {v : Bool} {c : Slice} (hT : 1 ≤ T) (h : c.Inv T) :
    (bitReader T v c).Inv T := by
  have hle := h.count_le
  obtain hp | ⟨hp, hp'⟩ | ⟨hp, hp'⟩ | ⟨hp, hp'⟩ | hp | hp := position_cases c.rs.bitCount
  · rw [bitReader_start hp]
    refine open_inv hT ?_ ?_ rfl rfl ⟨rfl, rfl, rfl⟩ ?_ ?_ ?_ <;> simp [acceptStart]
  · rw [bitReader_facility hp hp']
    have hn := bumpCount_toNat c.rs.bitCount (by omega)
    obtain ⟨hf, hk⟩ := h.open_fields hp
    rw [show c.rs.bitCount.toNat - 9 = 0 by omega] at hk
    have hk : c.rs.cardCode.toNat = 0 := by omega
    obtain ⟨hs, hs'⟩ := shiftIn_lt c.rs.facilityCode v hf (by omega)
    rw [show c.rs.bitCount.toNat - 1 + 1 = c.rs.bitCount.toNat by omega] at hs'
    have h0 := h.open_sum0 hp
    have h1 := h.open_sum1 hp
    have hb := onesBelow_le 8 (2 * c.rs.facilityCode.toNat + v.toNat)
    rw [onesBelow_shiftIn_of_lt 8 _ v
      (Nat.lt_of_lt_of_le hs' (Nat.pow_le_pow_right (by omega) hp'))] at hb
    simp only [hk, Nat.zero_shiftRight, onesBelow_zero_right] at h0 h1
    have ha := addBit_toNat c.rs.parity0Sum v (by omega)
    refine open_inv hT ?_ ?_ rfl rfl (h.open_clear hp) ⟨?_, ?_⟩ ?_ ?_ <;>
      simp only [acceptFacility, timerRearm_rs, clearStrobe_rs, hn, hs, hk]
    · omega
    · omega
    · simpa using hs'
    · exact Nat.two_pow_pos _
    · rw [ha, onesBelow_shiftIn_of_lt 8 _ v
        (Nat.lt_of_lt_of_le hs' (Nat.pow_le_pow_right (by omega) hp'))]
      simp; omega
    · simpa using h1
  · rw [bitReader_cardEven hp hp']
    have hn := bumpCount_toNat c.rs.bitCount (by omega)
    have hp1 : 1 ≤ c.rs.bitCount.toNat := by omega
    obtain ⟨hf, hk⟩ := h.open_fields hp1
    obtain ⟨hs, hs'⟩ := shiftIn_lt c.rs.cardCode v hk (by omega)
    have h4 : 2 * c.rs.cardCode.toNat + v.toNat < 2 ^ 4 :=
      Nat.lt_of_lt_of_le hs' (Nat.pow_le_pow_right (by omega) (by omega))
    have h0 := h.open_sum0 hp1
    have h1 := h.open_sum1 hp1
    have h8 := onesBelow_le 8 c.rs.facilityCode.toNat
    have hb := onesBelow_le 4 (2 * c.rs.cardCode.toNat + v.toNat)
    rw [onesBelow_shiftIn_of_lt 4 _ v h4] at hb
    rw [show c.rs.bitCount.toNat - 13 = 0 by omega] at h0 h1
    rw [Nat.shiftRight_zero] at h0
    have ha := addBit_toNat c.rs.parity0Sum v (by omega)
    refine open_inv hT ?_ ?_ rfl rfl (h.open_clear hp1) ⟨?_, ?_⟩ ?_ ?_ <;>
      simp only [acceptCardEven, timerRearm_rs, clearStrobe_rs, hn, hs]
    · omega
    · omega
    · exact Nat.lt_of_lt_of_le hf (Nat.pow_le_pow_right (by omega) (by omega))
    · rwa [show c.rs.bitCount.toNat + 1 - 9 = c.rs.bitCount.toNat - 9 + 1 by omega]
    · rw [show c.rs.bitCount.toNat + 1 - 13 = 0 by omega, Nat.shiftRight_zero, ha,
        onesBelow_shiftIn_of_lt 4 _ v h4]
      omega
    · rw [show c.rs.bitCount.toNat + 1 - 13 = 0 by omega]; simpa using h1
  · rw [bitReader_cardOdd hp hp']
    have hn := bumpCount_toNat c.rs.bitCount (by omega)
    have hp1 : 1 ≤ c.rs.bitCount.toNat := by omega
    obtain ⟨hf, hk⟩ := h.open_fields hp1
    obtain ⟨hs, hs'⟩ := shiftIn_lt c.rs.cardCode v hk (by omega)
    have h0 := h.open_sum0 hp1
    have h1 := h.open_sum1 hp1
    have hb := onesBelow_le (c.rs.bitCount.toNat - 13) c.rs.cardCode.toNat
    have ha := addBit_toNat c.rs.parity1Sum v (by omega)
    have he : c.rs.bitCount.toNat + 1 - 13 = c.rs.bitCount.toNat - 13 + 1 := by omega
    refine open_inv hT ?_ ?_ rfl rfl (h.open_clear hp1) ⟨?_, ?_⟩ ?_ ?_ <;>
      simp only [acceptCardOdd, timerRearm_rs, clearStrobe_rs, hn, hs]
    · omega
    · omega
    · exact Nat.lt_of_lt_of_le hf (Nat.pow_le_pow_right (by omega) (by omega))
    · rwa [show c.rs.bitCount.toNat + 1 - 9 = c.rs.bitCount.toNat - 9 + 1 by omega]
    · rw [he, shiftIn_shiftRight, h0]
    · rw [he, onesBelow_shiftIn, ha, h1]
  · rw [bitReader_trailing hp]
    refine idle_inv rfl rfl h.sums_le fun _ => ?_
    simp only [acceptTrailing_eq, timerDisarm_out]
    cases (validate (completeFrame v (timerRearm T (clearStrobe c)).rs)).ok <;> simp
  · omega

/-- A TICK keeps the invariant (R23). -/
theorem tickReader_inv {T : Nat} {c : Slice} (h : c.Inv T) : (tickReader c).Inv T := by
  cases ha : c.tm.armed with
  | false => rw [tickReader_disarmed ha]; exact clearStrobe_inv h
  | true =>
    have hb := h.armed_iff.mp ha
    have hc := h.armed_count ha
    by_cases h2 : 2 ≤ c.tm.count
    · rw [tickReader_counts ha h2]
      have hi := clearStrobe_inv h
      exact ⟨hi.count_le, by simp [hb], by simp; omega, by simp, hi.open_clear, hi.sums_le,
        hi.open_fields, hi.open_sum0, hi.open_sum1, hi.strobe_idle, hi.strobe_ok⟩
    · have hne : c.rs.bitCount ≠ 0 := by
        intro h0; rw [h0] at hb; simp at hb
      rw [tickReader_times_out ha (by omega) hne]
      exact idle_inv rfl rfl h.sums_le (by simp)

/-- Whatever its event, a slice keeps the invariant (R23). -/
theorem reactTo_inv {T : Nat} (i : Instr) {c : Slice} (hT : 1 ≤ T) (h : c.Inv T) :
    (reactTo T i c).Inv T := by
  cases i with
  | reset => exact zero_inv T
  | nop => exact clearStrobe_inv h
  | tick => exact tickReader_inv h
  | bit0 => exact bitReader_inv hT h
  | bit1 => exact bitReader_inv hT h
  | collide => exact h

end Sys2Proof.Machine
end

