-- ==== Sys2Proof/Laws/PerInstr.lean ====
section
/-! SUPPORT. Statements made of every instruction, one lemma a constructor. -/

/-- The family MatchesTable: the code the encoder writes for an instruction has, under the mask of
the instruction's row in the opcode table, the row's match (30_encoding.md R42). -/
def Sys2Proof.Laws.MatchesTable.Statement (i : Sys2Proof.Instr) : Prop :=
  Sys2Proof.encodeEvent i &&& i.maskBits = i.matchBits

theorem Sys2Proof.Laws.MatchesTable.reset : Sys2Proof.Laws.MatchesTable.Statement .reset := by
  unfold Sys2Proof.Laws.MatchesTable.Statement; decide

theorem Sys2Proof.Laws.MatchesTable.nop (reader : Nat) :
    Sys2Proof.Laws.MatchesTable.Statement (.nop reader) := by
  show (0b0000#4 &&& 0b1111#4) = 0b0000#4; decide

theorem Sys2Proof.Laws.MatchesTable.tick (reader : Nat) :
    Sys2Proof.Laws.MatchesTable.Statement (.tick reader) := by
  show (0b0100#4 &&& 0b1111#4) = 0b0100#4; decide

theorem Sys2Proof.Laws.MatchesTable.bit0 (reader : Nat) :
    Sys2Proof.Laws.MatchesTable.Statement (.bit0 reader) := by
  show (0b0001#4 &&& 0b1011#4) = 0b0001#4; decide

theorem Sys2Proof.Laws.MatchesTable.bit1 (reader : Nat) :
    Sys2Proof.Laws.MatchesTable.Statement (.bit1 reader) := by
  show (0b0010#4 &&& 0b1011#4) = 0b0010#4; decide

theorem Sys2Proof.Laws.MatchesTable.collide (reader : Nat) :
    Sys2Proof.Laws.MatchesTable.Statement (.collide reader) := by
  show (0b0011#4 &&& 0b1011#4) = 0b0011#4; decide
end

