-- ==== Sys2Proof/Laws/Step.lean ====
section
/-! SUPPORT. A step in closed form: where it answers a next state, every slice is what its own event
makes of it. -/

namespace Sys2Proof.Machine

/-- The slices after one event for each reader of a list without repeats. -/
theorem runEvents_map_next {f : Nat → Instr} (hf : ∀ r, (f r).reader? = some r) (l : List Nat)
    (hl : l.Nodup) (s t : State) (h : runEvents (l.map f) s = .next t) :
    (∀ r ∈ l, r < s.slices.length ∧ f r ≠ .collide r) ∧
    t = { s with
          slices := s.slices.mapIdx fun r c =>
            if r ∈ l then reactTo s.timeoutTicks (f r) c else c } := by
  induction l generalizing s with
  | nil =>
    obtain rfl : s = t := by simpa [runEvents] using h
    refine ⟨by simp, ?_⟩
    have : (s.slices.mapIdx fun r c => if r ∈ ([] : List Nat) then
        reactTo s.timeoutTicks (f r) c else c) = s.slices := by
      apply List.ext_getElem <;> simp
    rw [this]
  | cons r l ih =>
    simp only [List.map_cons, runEvents] at h
    split at h
    · rename_i u hu
      obtain ⟨h1, rfl⟩ | ⟨q, c, hq, hc, rfl⟩ := exec_next_cases hu
      · have := hf r; rw [h1] at this; simp [Instr.reader?] at this
      · obtain rfl : r = q := by simpa [hf r] using hq
        obtain ⟨hr, hcr⟩ := List.getElem?_eq_some_iff.mp hc
        have hn := List.nodup_cons.mp hl
        obtain ⟨h1, rfl⟩ := ih hn.2 _ h
        refine ⟨?_, ?_⟩
        · intro q hq'
          rcases List.mem_cons.mp hq' with rfl | hq'
          · refine ⟨hr, fun hcol => exec_collide_ne_next q s _ (hcol ▸ hu)⟩
          · have := h1 q hq'; simpa using this
        · simp only [setReader_tw, setReader_timeoutTicks, setReader_slices, setReader_input,
            setReader_schedule, State.mk.injEq, true_and, and_true]
          apply List.ext_getElem
          · simp
          · intro k hk hk'
            by_cases hkr : k = r
            · subst hkr; simp [hn.1, hcr]
            · simp [hkr, Ne.symm hkr]
    · simp at h
    · simp at h

/-- The events of different readers run where their readers exist and none is COLLIDE. -/
theorem runEvents_map_completes {f : Nat → Instr} (hf : ∀ r, (f r).reader? = some r)
    (l : List Nat) (s : State) (h : ∀ r ∈ l, r < s.slices.length ∧ f r ≠ .collide r) :
    ∃ t, runEvents (l.map f) s = .next t := by
  induction l generalizing s with
  | nil => exact ⟨s, rfl⟩
  | cons r l ih =>
    have hr := h r (by simp)
    simp only [List.map_cons, runEvents]
    have hne : f r ≠ .collide r := hr.2
    have : exec (f r) s = s.onReader r (reactTo s.timeoutTicks (f r)) := by
      have := hf r
      cases hfr : f r with
      | collide q =>
        rw [hfr] at this
        obtain rfl : q = r := by simpa [Instr.reader?] using this
        exact absurd hfr hne
      | reset => rw [hfr] at this; simp [Instr.reader?] at this
      | nop q => rw [hfr] at this; obtain rfl : q = r := by simpa [Instr.reader?] using this
                 rfl
      | tick q => rw [hfr] at this; obtain rfl : q = r := by simpa [Instr.reader?] using this
                  rfl
      | bit0 q => rw [hfr] at this; obtain rfl : q = r := by simpa [Instr.reader?] using this
                  rfl
      | bit1 q => rw [hfr] at this; obtain rfl : q = r := by simpa [Instr.reader?] using this
                  rfl
    rw [this, onReader_present _ (List.getElem?_eq_getElem hr.1)]
    exact ih _ fun q hq => by simpa using h q (List.mem_cons_of_mem _ hq)

/-- The event of reader `r` in the current cycle. -/
abbrev State.eventOf (s : State) (r : Nat) : Instr := decodeEvent r (s.codeOf r)

/-- A step that answers a next state: each reader's slice is what its own event makes of it. -/
theorem step_next_eq {s t : State} (h : step s = .next t) :
    s.config.Legal ∧ s.input.word < 2 ^ (2 * s.slices.length + 2) ∧
    t = { s.advanceInput with
          slices := s.slices.mapIdx fun r c => reactTo s.timeoutTicks (s.eventOf r) c } := by
  obtain ⟨hl, hw, ⟨hr, h⟩ | ⟨hr, h⟩⟩ := step_next_cases h
  · refine ⟨hl, hw, ?_⟩
    have he : ∀ r, s.eventOf r = .reset := by
      intro r
      show decodeEvent r (eventCode s.slices.length s.input.word r) = .reset
      rw [eventCode, decodeEvent_eventBits, hr]; rfl
    simp only [exec, execReset, Host.Outcome.next.injEq] at h
    rw [← h]
    simp only [he, reactTo, advanceInput_slices]
    congr 1
    apply List.ext_getElem <;> simp
  · refine ⟨hl, hw, ?_⟩
    have hf : ∀ r, (s.eventOf r).reader? = some r := fun r =>
      decodeEvent_ne_reset r _ (by simpa [State.codeOf, eventCode] using hr)
    obtain ⟨-, rfl⟩ := runEvents_map_next hf _ List.nodup_range _ _ h
    simp only [advanceInput_slices, advanceInput_timeoutTicks, List.mem_range]
    congr 1
    apply List.ext_getElem
    · simp
    · intro k hk _
      have : k < s.slices.length := by simpa using hk
      simp [this]

/-- One reader's slice after a step. -/
theorem step_next_reader {s t : State} (h : step s = .next t) {r : Nat} {c : Slice}
    (hc : s.slices[r]? = some c) :
    t.slices[r]? = some (reactTo s.timeoutTicks (s.eventOf r) c) := by
  obtain ⟨-, -, rfl⟩ := step_next_eq h
  simp [List.getElem?_mapIdx, hc]

/-- In a step that answers a next state with `rst` low, each reader has an event of its own, and none
is COLLIDE. -/
theorem step_next_event {s t : State} (h : step s = .next t)
    (h0 : s.input.word.testBit (2 * s.slices.length + 1) = false) {r : Nat}
    (hr : r < s.slices.length) :
    (s.eventOf r).reader? = some r ∧ s.eventOf r ≠ .collide r := by
  have hf : ∀ r, (s.eventOf r).reader? = some r := fun r =>
    decodeEvent_ne_reset r _ (by simpa [State.codeOf, eventCode] using h0)
  obtain ⟨-, -, ⟨h5, -⟩ | ⟨-, h6⟩⟩ := step_next_cases h
  · simp [h0] at h5
  · exact ⟨hf r, ((runEvents_map_next hf _ List.nodup_range _ _ h6).1 r (by simpa using hr)).2⟩

/-- Events of one reader, run one after another, act on its slice alone. -/
theorem runEvents_one_reader {r : Nat} (es : List Instr)
    (hes : ∀ i ∈ es, i.reader? = some r ∧ i ≠ .collide r) (s : State) (c : Slice)
    (hc : s.slices[r]? = some c) :
    runEvents es s =
      .next (s.setReader r (es.foldl (fun c i => reactTo s.timeoutTicks i c) c)) := by
  induction es generalizing s c with
  | nil =>
    obtain ⟨a, b⟩ := List.getElem?_eq_some_iff.mp hc
    simp only [runEvents, State.setReader, List.foldl_nil]
    rw [← b, List.set_getElem_self]
  | cons i es ih =>
    have hr := (List.getElem?_eq_some_iff.mp hc).1
    obtain ⟨hi, hic⟩ := hes i (by simp)
    simp only [runEvents]
    rw [exec_of_reader hi (by intro hx; exact hic hx) s, onReader_present _ hc]
    simp only
    rw [ih (fun i hi => hes i (by simp [hi])) _ (reactTo s.timeoutTicks i c) (by simp [hr])]
    simp [State.setReader]

/-- What a step leaves: the parameters, the number of readers, and the inputs but for the passing
of one cycle. -/
theorem step_next_frame {s t : State} (h : step s = .next t) :
    t.tw = s.tw ∧ t.timeoutTicks = s.timeoutTicks ∧ t.slices.length = s.slices.length ∧
      t.input = s.advanceInput.input ∧ t.schedule = s.advanceInput.schedule := by
  obtain ⟨-, -, rfl⟩ := step_next_eq h
  simp

/-- What stands on the ports later does not depend on the slices. -/
theorem inputAt_congr (k : Nat) {s t : State} (hi : s.input = t.input)
    (hs : s.schedule = t.schedule) : s.inputAt k = t.inputAt k := by
  induction k generalizing s t with
  | zero => exact hi
  | succ k ih =>
    simp only [State.inputAt]
    rw [advanceInput_eq s, advanceInput_eq t]
    exact ih (by simp [hi, hs]) (by simp [hs])

/-- The codes a reader gets after a step are those that were one cycle later before it. -/
theorem step_next_codeAt {s t : State} (h : step s = .next t) (r k : Nat) :
    t.codeAt r k = s.codeAt r (k + 1) := by
  obtain ⟨-, -, hn, hi, hs⟩ := step_next_frame h
  simp only [State.codeAt, hn, State.inputAt, inputAt_congr k hi hs]

end Sys2Proof.Machine
end

