-- ==== Sys2Proof/Tests/Slice0.lean ====
section
/-! SUPPORT. The model's own tests. Expected values are those of spec/95_test_vectors.md (the vector is
named at each test) or of the spec's encoding tables. Then, for every statement with hypotheses,
a witness that meets them. -/

namespace Sys2Proof.Tests

open Sys2Proof.Machine

/-! ## Well-formedness: each check refuses an ill-formed term -/

theorem test_reader_id_out_of_range_refused :
    Instr.wellFormed 2 (.bit0 2) = false ∧ Instr.wellFormed 2 (.bit1 7) = false ∧
    Instr.wellFormed 2 (.nop 2) = false ∧ Instr.wellFormed 2 (.tick 3) = false ∧
    Instr.wellFormed 2 (.collide 2) = false ∧ Instr.wellFormed 2 (.bit1 1) = true := by decide

theorem test_ill_formed_step_refused :
    wellFormedStep 2 [.bit0 0] = false ∧ wellFormedStep 2 [.bit0 1, .bit0 0] = false ∧
    wellFormedStep 2 [.tick 0, .nop 1] = false ∧ wellFormedStep 2 [.reset, .reset] = false ∧
    wellFormedStep 2 [.nop 0, .bit1 1] = true ∧ wellFormedStep 2 [.reset] = true := by decide

theorem test_illegal_parameters_refused :
    ¬(Config.mk 0 8 2).Legal ∧ ¬(Config.mk 1 0 1).Legal ∧ ¬(Config.mk 1 8 0).Legal ∧
    ¬(Config.mk 1 8 256).Legal ∧ (Config.mk 1 8 255).Legal := by decide

theorem test_illegal_statement_refused :
    (Stmt.step false [(0, false), (0, true)]).legal 2 = false ∧
    (Stmt.b1 2).legal 2 = false ∧ (Stmt.b0 5).legal 2 = false ∧
    (Stmt.step true [(2, true)]).legal 2 = false ∧ (Stmt.step true [(1, true)]).legal 2 = true := by
  decide

/-! ## Decoding: words written out bit by bit from 30_encoding.md R41 and R42 -/

/-- One reader, `S = {rst, tick, d1, d0}`. -/
theorem test_decode_one_reader :
    decodeStep 1 0b1000 = .events [.reset] ∧ decodeStep 1 0b0000 = .events [.nop 0] ∧
    decodeStep 1 0b0100 = .events [.tick 0] ∧ decodeStep 1 0b0101 = .events [.bit0 0] ∧
    decodeStep 1 0b0010 = .events [.bit1 0] ∧ decodeStep 1 0b0111 = .events [.collide 0] ∧
    decodeStep 1 0b10000 = .rejected .wordTooWide := by decide

/-- Two readers, `S = {rst, tick, d1[1], d0[1], d1[0], d0[0]}`; the words of program P2 among them. -/
theorem test_decode_two_readers :
    decodeStep 2 0b100000 = .events [.reset] ∧ decodeStep 2 0b000010 = .events [.bit1 0, .nop 1] ∧
    decodeStep 2 0b001001 = .events [.bit0 0, .bit1 1] ∧
    decodeStep 2 0b010110 = .events [.bit1 0, .bit0 1] ∧
    decodeStep 2 0b010001 = .events [.bit0 0, .tick 1] ∧
    decodeStep 2 0b001110 = .events [.bit1 0, .collide 1] := by decide

/-- The host's question, on a word of each row of the opcode table. -/
theorem test_decode_table_words :
    [8, 0, 4, 1, 2, 3].map (decodeTableWord 8) =
      [some .reset, some (.nop 0), some (.tick 0), some (.bit0 0), some (.bit1 0),
        some (.collide 0)] := by decide

/-- Step words of trace statements (R51) and the encoding of program P5's first steps. -/
theorem test_trace_words :
    [Stmt.rst, .nop, .tick, .b0 1, .b1 0, .step true [(0, true), (1, false)]].map (Stmt.word 2) =
      [0b100000, 0, 0b010000, 0b000100, 0b000010, 0b010110] ∧
    ([Stmt.rst] ++ Stmt.bits 0 13 0x1010 ++ Stmt.ticks 2).map (Stmt.word 1) =
      [8, 2, 1, 1, 1, 1, 1, 1, 1, 2, 1, 1, 1, 1, 4, 4] := by decide

/-- The frame words of vectors A1 to A8. -/
theorem test_well_formed_frames :
    w26 1 1000 = 0x20207D1#26 ∧ w26 0 0 = 0x0000001#26 ∧ w26 255 65535 = 0x1FFFFFF#26 ∧
    w26 0x5A 0xA5C3 = 0x0B54B87#26 ∧ w26 0x80 0x0001 = 0x3000002#26 ∧
    w26 0x00 0xFFFF = 0x001FFFF#26 ∧ w26 0xFF 0x0000 = 0x1FE0001#26 ∧
    w26 0x7F 0x8000 = 0x0FF0001#26 := by decide

/-- Parity of vectors V2 (even fails), V3 (odd fails), V4 (both), V7 (two errors, both hold). -/
theorem test_frame_parity :
    [0x20207D1#26, 0x00207D1#26, 0x20207D0#26, 0x00207D0#26, 0x38207D1#26].map
      (fun w => (evenParityHolds w, oddParityHolds w)) =
      [(true, true), (false, true), (true, false), (false, false), (true, true)] := by decide

/-! ## One event, on small states -/

/-- A block with one reader, `TIMEOUT_TICKS = 3`, holding `c`, with `word` on its ports. -/
def block (c : Slice) (word : Nat := 0) : State := ⟨8, 3, [c], ⟨word, false⟩, []⟩

/-- A reader with these registers and timer, and no notification. -/
def reader (rs : ReaderState) (armed : Bool) (count : Nat) : Slice :=
  ⟨rs, ⟨armed, count⟩, ⟨false, false, .none, false, false, 0, 0, 0⟩⟩

/-- The next slices, if there is a next state. -/
def slicesAfter (o : Host.Outcome State Fault Refusal) : Option (List Slice) :=
  match o with
  | .next t => some t.slices
  | .fault _ => none
  | .refused _ => none

/-- Why there is no next state, if there is none. -/
def refusalOf (o : Host.Outcome State Fault Refusal) : Option Refusal :=
  match o with
  | .next _ => none
  | .fault _ => none
  | .refused why => some why

/-- `W26(1, 1000)` after positions 0 to 24 (section 2.1). -/
def s1At25 : Slice := reader ⟨25, 1, 6, 0x01, 0x03E8, 0, true, false, false⟩ true 3

/-- The same after position 25: the NONE notification of S1. -/
def s1Done : Slice where
  rs := ⟨0, 1, 6, 0x01, 0x03E8, 0x0103E8, true, true, true⟩
  tm := ⟨false, 0⟩
  out := ⟨true, true, .none, false, false, 0x01, 0x03E8, 0x0103E8⟩

/-- Z1: RESET zeroes every field of a reader that holds a notification. -/
theorem test_reset_clears : slicesAfter (exec .reset (block s1Done)) = some [Slice.zero] := by
  decide

/-- E6: with `rst = 1` and both lines pulsed (code 11) the step is a reset, not refused. -/
theorem test_reset_before_collide :
    slicesAfter (step (block s1At25 0b1011)) = some [Slice.zero] := by decide

/-- F1: after a NOP the strobe is 0 and the data fields still hold the notification. -/
theorem test_nop_after_notification :
    slicesAfter (exec (.nop 0) (block s1Done)) =
      some [{ s1Done with
              out := ⟨false, true, .none, false, false, 0x01, 0x03E8, 0x0103E8⟩ }] := by decide

/-- E1 and I13: a NOP on an Open reader with its counter at 1 does not time it out. -/
theorem test_nop_does_not_count :
    slicesAfter (exec (.nop 0) (block { s1At25 with tm := ⟨true, 1⟩ })) =
      some [{ s1At25 with tm := ⟨true, 1⟩ }] := by decide

/-- T2 (a count of 3 becomes 2), T4 (Idle) and T5 (25 bits, then the last tick: INCOMPLETE with
`full = 0`). -/
theorem test_tick_counts_and_times_out :
    slicesAfter (exec (.tick 0) (block s1At25)) = some [{ s1At25 with tm := ⟨true, 2⟩ }] ∧
    slicesAfter (exec (.tick 0) (block Slice.zero)) = some [Slice.zero] ∧
    slicesAfter (exec (.tick 0) (block { s1At25 with tm := ⟨true, 1⟩ })) =
      some [⟨{ s1At25.rs with bitCount := 0 }, ⟨false, 0⟩,
        ⟨true, false, .incomplete, false, false, 0x01, 0x03E8, 0⟩⟩] := by decide

/-- F4 and F5, forced states: a timeout with `code_valid = 1` is not reported valid; an expiry on an
Idle reader makes no notification and leaves `code_valid`. -/
theorem test_tick_forced_states :
    slicesAfter (exec (.tick 0) (block (reader ⟨5, 0, 0, 0, 0, 0, false, false, true⟩ true 1))) =
      some [⟨⟨0, 0, 0, 0, 0, 0, false, false, true⟩, ⟨false, 0⟩,
        ⟨true, false, .incomplete, false, false, 0, 0, 0⟩⟩] ∧
    slicesAfter (exec (.tick 0) (block (reader ⟨0, 0, 0, 0, 0, 0, false, false, true⟩ true 1))) =
      some [reader ⟨0, 0, 0, 0, 0, 0, false, false, true⟩ false 0] := by decide

/-- E2; section 2.1 at position 24 (`v = 0`, `card` 0x01F4 to 0x03E8); V3 (trailing 0: PARITY, odd). -/
theorem test_bit0_positions :
    slicesAfter (exec (.bit0 0) (block Slice.zero)) =
      some [reader ⟨1, 0, 0, 0, 0, 0, false, false, false⟩ true 3] ∧
    slicesAfter (exec (.bit0 0)
      (block (reader ⟨24, 1, 6, 0x01, 0x01F4, 0, true, false, false⟩ true 1))) = some [s1At25] ∧
    slicesAfter (exec (.bit0 0) (block s1At25)) =
      some [⟨⟨0, 1, 6, 0x01, 0x03E8, 0x0103E8, true, false, false⟩, ⟨false, 0⟩,
        ⟨true, false, .parity, false, true, 0x01, 0x03E8, 0x0103E8⟩⟩] := by decide

/-- O1: the overrun of a forced state. -/
theorem test_bit0_overrun :
    slicesAfter (exec (.bit0 0)
      (block (reader ⟨26, 0, 0, 0x12, 0x3456, 0x123456, false, false, true⟩ true 2))) =
      some [⟨⟨0, 0, 0, 0x12, 0x3456, 0x123456, false, false, false⟩, ⟨false, 0⟩,
        ⟨true, false, .overrun, false, false, 0x12, 0x3456, 0x123456⟩⟩] := by decide

/-- E3; section 2.1 at positions 8 and 15; R61's example: a frame start after a completed frame. -/
theorem test_bit1_positions :
    slicesAfter (exec (.bit1 0) (block Slice.zero)) =
      some [reader ⟨1, 0, 0, 0, 0, 0, true, false, false⟩ true 3] ∧
    slicesAfter (exec (.bit1 0) (block (reader ⟨8, 0, 0, 0, 0, 0, true, false, false⟩ true 3))) =
      some [reader ⟨9, 1, 0, 0x01, 0, 0, true, false, false⟩ true 3] ∧
    slicesAfter (exec (.bit1 0)
      (block (reader ⟨15, 1, 0, 0x01, 0, 0, true, false, false⟩ true 3))) =
      some [reader ⟨16, 1, 1, 0x01, 0x0001, 0, true, false, false⟩ true 3] ∧
    slicesAfter (exec (.bit1 0) (block s1Done)) =
      some [⟨⟨1, 0, 0, 0, 0, 0, true, false, false⟩, ⟨true, 3⟩,
        ⟨false, true, .none, false, false, 0x01, 0x03E8, 0x0103E8⟩⟩] := by decide

/-- S1 and S2: the trailing bit completes the frame, valid; with position 0 flipped, PARITY even. -/
theorem test_bit1_completes :
    slicesAfter (exec (.bit1 0) (block s1At25)) = some [s1Done] ∧
    slicesAfter (exec (.bit1 0)
      (block { s1At25 with rs := { s1At25.rs with leadingParityBit := false } })) =
      some [⟨⟨0, 1, 6, 0x01, 0x03E8, 0x0103E8, false, true, false⟩, ⟨false, 0⟩,
        ⟨true, false, .parity, true, false, 0x01, 0x03E8, 0x0103E8⟩⟩] := by decide

/-- E4: codes 3 and 7 are refused. -/
theorem test_collide_refused :
    refusalOf (step (block s1At25 0b0011)) = some (.collide 0) ∧
    refusalOf (step (block s1At25 0b0111)) = some (.collide 0) := by decide

/-- E5: a collision of reader 0 refuses the step of both readers. -/
theorem test_collide_refuses_both_readers :
    refusalOf (step ⟨8, 3, [s1At25, s1At25], ⟨0b001011, false⟩, []⟩) = some (.collide 0) := by decide

/-- T3: a bit wins over the expiring tick of its step, which still counts for the other reader. -/
theorem test_bit_wins_over_tick :
    slicesAfter (step ⟨8, 2, [reader ⟨1, 0, 0, 0, 0, 0, true, false, false⟩ true 1,
        reader ⟨1, 0, 0, 0, 0, 0, true, false, false⟩ true 2], ⟨0b010001, false⟩, []⟩) =
      some [reader ⟨2, 0, 0, 0, 0, 0, true, false, false⟩ true 2,
        reader ⟨1, 0, 0, 0, 0, 0, true, false, false⟩ true 1] := by decide

/-- F1, F2, F3: the strobes of a valid and of an invalid notification. -/
theorem test_strobes :
    resStrobe s1Done.out = true ∧ traceStrobe s1Done.out true = false ∧
    resStrobe ⟨true, false, .parity, true, false, 1, 0x03E8, 0x0103E8⟩ = false ∧
    traceStrobe ⟨true, false, .parity, true, false, 1, 0x03E8, 0x0103E8⟩ true = true ∧
    traceStrobe ⟨true, false, .parity, true, false, 1, 0x03E8, 0x0103E8⟩ false = false ∧
    (block s1Done).result? 0 = some ⟨0, 0x01, 0x03E8, 0x0103E8⟩ := by decide

/-! ## Witnesses: for each statement with hypotheses, a state and operands that meet them -/

/-- A reader at position `p`, its counter at 1. -/
def sliceAt (p : Nat) : Slice :=
  reader ⟨BitVec.ofNat 6 p, 1, 0, 0x01, 0, 0, true, false, false⟩ true 1

theorem witness_EventCodeTakesFourBitsOfStepWord : (1 : Nat) < 2 := by decide

theorem witness_DecodeOfEncodedStep :
    wellFormedStep 2 [.bit1 0, .tick 1] = true ∧ wellFormedStep 2 [.reset] = true ∧
      wellFormedStep 2 [.collide 0, .nop 1] = true := by decide

theorem witness_EncodeOfDecodedStep :
    decodeStep 2 0b110110 = .events [.reset] ∧
    decodeStep 2 0b010010 = .events [.bit1 0, .tick 1] ∧
    ∃ r, r < 2 ∧ (0b010010 : Nat).testBit (2 * r) = false ∧
      (0b010010 : Nat).testBit (2 * r + 1) = false := ⟨by decide, by decide, 1, by decide⟩

theorem witness_TraceStatementEvents :
    ∀ a ∈ [Stmt.rst, .nop, .tick, .b0 1, .b1 0, .step true [(1, true), (0, false)]],
      a.legal 2 = true := by decide

theorem witness_SingleBitErrorBreaksParity :
    evenParityHolds 0x20207D1#26 = true ∧ oddParityHolds 0x20207D1#26 = true ∧
      ∀ p ∈ [0, 12, 13, 25], p < 26 := by decide

theorem witness_StepRunsDecodedEvents :
    (block s1At25 2).config.Legal ∧
      decodeStep (block s1At25 2).slices.length (block s1At25 2).input.word = .events [.bit1 0] := by
  decide

/-- Both sides of the condition: a step with no collision and one with. -/
theorem witness_StepRefusedExactlyOnCollision :
    (∃ t, step (block s1At25 2) = .next t) ∧ (block s1At25 3).config.Legal ∧
      (block s1At25 3).input.word < 2 ^ (2 * (block s1At25 3).slices.length + 2) ∧
      ¬∃ t, step (block s1At25 3) = .next t :=
  ⟨⟨_, rfl⟩, by decide, by decide, fun ⟨t, h⟩ => by
    have h' : step (block s1At25 3) = .refused (.collide 0) := rfl
    rw [h'] at h; simp at h⟩

theorem witness_IllegalParametersRefused :
    let s : State := ⟨8, 256, [Slice.zero], ⟨0, false⟩, []⟩
    ¬(1 ≤ s.slices.length ∧ 1 ≤ s.tw ∧ 1 ≤ s.timeoutTicks ∧ s.timeoutTicks ≤ 2 ^ s.tw - 1) := by
  decide

theorem witness_WordWiderThanPortsRefused :
    (block s1At25 16).config.Legal ∧
      2 ^ (2 * (block s1At25 16).slices.length + 2) ≤ (block s1At25 16).input.word := by decide

theorem witness_ResetTakesPrecedenceInStep :
    (block s1At25 15).config.Legal ∧
      (block s1At25 15).input.word < 2 ^ (2 * (block s1At25 15).slices.length + 2) ∧
      (block s1At25 15).input.word.testBit (2 * (block s1At25 15).slices.length + 1) = true := by
  decide

theorem witness_StepGivesEachReaderItsOwnEvent :
    ∃ t, step (block s1At25 2) = .next t ∧ 0 < (block s1At25 2).slices.length :=
  ⟨_, rfl, by decide⟩

theorem witness_EventChangesOnlyItsReader :
    ∃ t, exec (.bit1 0) (block s1At25) = .next t ∧ (block s1At25).slices[0]? = some s1At25 :=
  ⟨_, rfl, rfl⟩

theorem witness_ReaderOrderDoesNotMatter :
    ∃ t, [Instr.bit1 0, .tick 1].Perm [.tick 1, .bit1 0] ∧
      (∀ i ∈ [Instr.bit1 0, .tick 1], i ≠ .reset) ∧
      ([Instr.bit1 0, .tick 1].filterMap Instr.reader?).Nodup ∧
      runEvents [.bit1 0, .tick 1] ⟨8, 3, [s1At25, s1At25], ⟨0, false⟩, []⟩ = .next t :=
  ⟨_, List.Perm.swap _ _ _, by decide, by decide, rfl⟩

theorem witness_RunIsProductOfReaders :
    ∃ t, runSteps 2 (block s1At25 2) = .next t ∧ (block s1At25 2).slices[0]? = some s1At25 :=
  ⟨_, rfl, rfl⟩

/-- Reader 0 gets a BIT1 in a block of one reader and in a block of two, where reader 1 gets a
BIT0. -/
theorem witness_OtherReadersDoNotInterfere :
    let s := block s1At25 2
    let s' : State := ⟨9, 3, [s1At25, Slice.zero], ⟨0b000110, false⟩, []⟩
    ∃ t t', s.timeoutTicks = s'.timeoutTicks ∧ 0 < s.slices.length ∧
      s.slices[0]? = s'.slices[0]? ∧ (∀ j, j < 1 → s.codeAt 0 j = s'.codeAt 0 j) ∧
      runSteps 1 s = .next t ∧ runSteps 1 s' = .next t' :=
  ⟨_, _, rfl, by decide, rfl, by decide, rfl, rfl⟩

theorem witness_TraceToggleChangesOnlyTraceStrobe :
    ∃ t, AgreeButTrace (block s1At25 2) { block s1At25 2 with input := ⟨2, true⟩ } ∧
      runSteps 2 (block s1At25 2) = .next t :=
  ⟨_, ⟨⟨rfl, rfl⟩, rfl, rfl, rfl⟩, rfl⟩

theorem witness_NopClearsOnlyStrobe : (block s1Done).slices[0]? = some s1Done := rfl

theorem witness_TickWithNoTimerPending :
    (block s1Done).slices[0]? = some s1Done ∧ s1Done.tm.armed = false := by decide

theorem witness_TickCountsDown :
    ∀ k ∈ [2, 3], (block { s1At25 with tm := ⟨true, k⟩ }).slices[0]? =
        some { s1At25 with tm := ⟨true, k⟩ } ∧ 2 ≤ k := by decide

theorem witness_TickTimesOutOpenFrame :
    ∀ p ∈ [1, 25], (block (sliceAt p)).slices[0]? = some (sliceAt p) ∧
      (sliceAt p).tm.armed = true ∧ (sliceAt p).tm.count ≤ 1 ∧ (sliceAt p).rs.bitCount ≠ 0 := by
  decide

theorem witness_TickExpiryOnIdleIsSilent :
    (block (sliceAt 0)).slices[0]? = some (sliceAt 0) ∧ (sliceAt 0).tm.armed = true ∧
      (sliceAt 0).tm.count ≤ 1 ∧ (sliceAt 0).rs.bitCount = 0 := by decide

theorem witness_BitAtPositionZeroStartsFrame :
    (block s1Done).slices[0]? = some s1Done ∧ s1Done.rs.bitCount = 0 := by decide

theorem witness_BitAtFacilityPosition :
    ∀ p ∈ [1, 8], (block (sliceAt p)).slices[0]? = some (sliceAt p) ∧
      1 ≤ (sliceAt p).rs.bitCount.toNat ∧ (sliceAt p).rs.bitCount.toNat ≤ 8 := by decide

theorem witness_BitAtEvenCardPosition :
    ∀ p ∈ [9, 12], (block (sliceAt p)).slices[0]? = some (sliceAt p) ∧
      9 ≤ (sliceAt p).rs.bitCount.toNat ∧ (sliceAt p).rs.bitCount.toNat ≤ 12 := by decide

theorem witness_BitAtOddCardPosition :
    ∀ p ∈ [13, 24], (block (sliceAt p)).slices[0]? = some (sliceAt p) ∧
      13 ≤ (sliceAt p).rs.bitCount.toNat ∧ (sliceAt p).rs.bitCount.toNat ≤ 24 := by decide

theorem witness_BitAtTrailingPositionCompletesFrame :
    (block s1At25).slices[0]? = some s1At25 ∧ s1At25.rs.bitCount.toNat = 25 := by decide

theorem witness_BitPastFrameEndOverruns :
    ∀ p ∈ [26, 40, 63], (block (sliceAt p)).slices[0]? = some (sliceAt p) ∧
      26 ≤ (sliceAt p).rs.bitCount.toNat := by decide

theorem witness_EventsOfPresentReadersComplete :
    (∀ r, Instr.bit1 0 ≠ .collide r) ∧ (∀ r, Instr.reset ≠ .collide r) := by simp

/-- A bit before the frame end and one at it, each with and without the tick. -/
theorem witness_TickIgnoredForPulsedReader :
    ∀ c ∈ [sliceAt 24, s1At25], ∃ t t', (block c 2).slices[0]? = some c ∧
      (block c 2).input.word.testBit 3 = false ∧ (block c 2).input.word.testBit 1 = true ∧
      step (block c 2) = .next t ∧ step (block c (2 ^^^ 2 ^ 2)) = .next t' := by
  intro c hc
  rcases List.mem_cons.mp hc with rfl | hc
  · exact ⟨_, _, rfl, by decide, by decide, rfl, rfl⟩
  · obtain rfl := List.mem_singleton.mp hc
    exact ⟨_, _, rfl, by decide, by decide, rfl, rfl⟩

theorem witness_NotificationIsConsistent :
    ∃ t, exec (.bit1 0) (block s1At25) = .next t ∧ (Instr.bit1 0).reader? = some 0 ∧
      t.slices[0]? = some s1Done ∧ s1Done.out.finStrobe = true :=
  ⟨_, rfl, rfl, by decide, rfl⟩

theorem witness_OutputHoldsBetweenNotifications :
    ∃ t, step (block s1Done 0) = .next t ∧ (block s1Done 0).input.word.testBit 3 = false ∧
      (block s1Done 0).slices[0]? = some s1Done ∧ t.slices[0]? = some (clearStrobe s1Done) ∧
      (clearStrobe s1Done).out.finStrobe = false :=
  ⟨_, rfl, by decide, rfl, by decide, rfl⟩

/-- A reader in the middle of a frame has the invariant. -/
theorem s1At25_inv : s1At25.Inv 3 := by constructor <;> decide

/-- A reader with a notification has it too. -/
theorem s1Done_inv : s1Done.Inv 3 := by constructor <;> decide

theorem block_inv {c : Slice} (word : Nat) (h : c.Inv 3) : (block c word).Inv where
  legal := ⟨by simp [block, State.config], by simp [block, State.config],
    by simp [block, State.config], by simp [block, State.config]⟩
  slices_inv := by simpa [block] using h

theorem witness_NotificationsAreTwoStepsApart :
    ∃ t, (block s1Done 4).Inv ∧ step (block s1Done 4) = .next t ∧
      (block s1Done 4).notifies 0 = true :=
  ⟨_, block_inv 4 s1Done_inv, rfl, by decide⟩

theorem witness_OutputBundleFields : (block s1Done).slices[0]? = some s1Done := rfl

theorem witness_WritersOfFrameControl :
    ∃ t, exec (.tick 0) (block (sliceAt 5)) = .next t ∧
      (block (sliceAt 5)).slices[0]? = some (sliceAt 5) ∧
      t.slices[0]? = some (tickReader (sliceAt 5)) ∧ Instr.tick 0 ≠ .reset ∧
      (tickReader (sliceAt 5)).rs.bitCount ≠ (sliceAt 5).rs.bitCount :=
  ⟨_, rfl, rfl, by decide, by decide, by decide⟩

/-- Each starting row of the lifecycle table, at the boundary positions. -/
theorem witness_LifecycleTransitions :
    lifecycle (sliceAt 0).rs = .idle ∧ lifecycle (sliceAt 1).rs = .openFrame ∧
      lifecycle (sliceAt 24).rs = .openFrame ∧ lifecycle (sliceAt 25).rs = .openFrame ∧
      lifecycle (sliceAt 26).rs = .pastEnd ∧ (sliceAt 25).tm.armed = true ∧
      (sliceAt 25).tm.count ≤ 1 ∧ s1At25.tm.armed = true ∧ 2 ≤ s1At25.tm.count ∧
      s1Done.tm.armed = false ∧ lifecycle s1Done.rs = .idle := by decide

theorem witness_ResetStateHasInvariant :
    (Config.mk 2 8 255).Legal ∧
      ∃ t, (block s1At25).config.Legal ∧ exec .reset (block s1At25) = .next t :=
  ⟨by decide, _, by decide, rfl⟩

theorem witness_StepKeepsInvariant :
    ∃ t, (block s1At25 2).Inv ∧ step (block s1At25 2) = .next t :=
  ⟨_, block_inv 2 s1At25_inv, rfl⟩

theorem witness_NoOverrunInRunFromReset :
    ∃ t, (Config.mk 1 8 3).Legal ∧
      runSteps 2 { State.resetOf (Config.mk 1 8 3) with input := ⟨2, false⟩, schedule := [⟨4, true⟩] } =
        .next t :=
  ⟨_, by decide, rfl⟩

/-- A frame is open at the start and ends in the first step; a new one is opened in the second. -/
theorem witness_OneNotificationPerFrame :
    let s : State := { block s1At25 2 with schedule := [⟨1, false⟩] }
    ∃ t, s.Inv ∧ runSteps 2 s = .next t ∧ ∀ j, j < 2 → s.rstAt j = false :=
  ⟨_, ⟨(block_inv 2 s1At25_inv).legal, (block_inv 2 s1At25_inv).slices_inv⟩, rfl, by decide⟩

/-- With ticks and with NOPs only. -/
theorem witness_FrameSurvivesShortGap :
    (block s1At25).slices[0]? = some s1At25 ∧ s1At25.tm.armed = true ∧
      ticksIn [false, true, false, true] < s1At25.tm.count ∧
      ticksIn [false, false, false] < s1At25.tm.count := by decide

theorem witness_FrameTimesOutOnLastTick :
    (block s1At25).slices[0]? = some s1At25 ∧ s1At25.tm.armed = true ∧ s1At25.rs.bitCount ≠ 0 ∧
      ticksIn [true, false, true] + 1 = s1At25.tm.count := by decide

/-- `TIMEOUT_TICKS = 3`, ticks every 10, the first of them 7 after the bit. -/
theorem witness_TimeoutInRealTime :
    ∃ t c', (block (sliceAt 24)).slices[0]? = some (sliceAt 24) ∧
      (sliceAt 24).rs.bitCount.toNat ≤ 24 ∧ 1 ≤ (block (sliceAt 24)).timeoutTicks ∧
      (100 : Nat) < 107 ∧ 107 ≤ 100 + 10 ∧ ticksIn [true, false, true] = 2 ∧
      runEvents (.ofBit 0 true :: (gapEvents 0 [true, false, true] ++ [.tick 0]))
        (block (sliceAt 24)) = .next t ∧
      t.slices[0]? = some c' ∧ c'.out.finStrobe = true :=
  ⟨_, _, rfl, by decide, by decide, by decide, by decide, by decide, rfl, rfl, by decide⟩

/-- One bit, and twenty-five, each with two ticks after it (`TIMEOUT_TICKS = 3`). -/
theorem witness_PartialFrameContents :
    (block s1Done).slices[0]? = some s1Done ∧ s1Done.rs.bitCount = 0 ∧
      ∀ k ∈ [1, 25], 1 ≤ (List.replicate k (true, [true, false, true])).length ∧
        (List.replicate k (true, [true, false, true])).length ≤ 25 ∧
        ∀ b ∈ List.replicate k (true, [true, false, true]),
          ticksIn b.2 < (block s1Done).timeoutTicks := by decide

theorem witness_CompletedFrameReport :
    (block s1Done).slices[0]? = some s1Done ∧ s1Done.rs.bitCount = 0 ∧
      (List.replicate 25 (true, [true])).length = 25 ∧
      ∀ b ∈ List.replicate 25 (true, [true]), ticksIn b.2 < (block s1Done).timeoutTicks := by decide

theorem witness_WellFormedFrameIsForwarded :
    let bits := ((frameBitsOf (w26 1 1000)).take 25).map fun v => (v, [true, false])
    (block s1Done).slices[0]? = some s1Done ∧ s1Done.rs.bitCount = 0 ∧
      bits.map Prod.fst ++ [true] = frameBitsOf (w26 1 1000) ∧
      ∀ b ∈ bits, ticksIn b.2 < (block s1Done).timeoutTicks := by decide

/-- S3's ten bits, and the shortest and the longest frame that stops short. -/
theorem witness_ShortFrameEndsIncomplete :
    (block s1Done).slices[0]? = some s1Done ∧ s1Done.rs.bitCount = 0 ∧
      (∀ k ∈ [0, 9, 24], (List.replicate k (true, [true])).length ≤ 24 ∧
        ∀ b ∈ List.replicate k (true, [true]), ticksIn b.2 < (block s1Done).timeoutTicks) ∧
      ticksIn [true, true] + 1 = (block s1Done).timeoutTicks := by decide

end Sys2Proof.Tests
end

section
/-! Parameter sets (00_scope.md R5, R116): which of them a machine is built for, and what the step
of a state of an illegal one answers. -/

namespace Sys2Proof.Machine

@[simp] theorem State.build?_eq_none_iff {c : Config} : State.build? c = none ↔ ¬c.Legal := by
  simp [State.build?]

theorem step_of_not_legal {s : State} (h : ¬s.config.Legal) :
    step s = .refused .illegalParameters := if_neg h

/-- Settles O13: `Config.Legal` is the conjunction of the conditions of R5, and both `State.build?`
and `step` branch on it. -/
theorem illegalParametersRefused : Obligations.IllegalParametersRefused := by
  unfold Obligations.IllegalParametersRefused
  constructor
  · intro c
    exact State.build?_eq_none_iff
  · intro s h
    exact step_of_not_legal h

end Sys2Proof.Machine
end

section
/-! The invariant of reachable states (10_state.md R23) along steps and runs. A step gives each slice
its own event and an event keeps the slice invariant; a run from reset is then an induction over its
steps. -/

namespace Sys2Proof.Machine

/-- The reset values of every field are those of `Slice.zero`, so RESET leaves that slice for each
reader (R130). -/
theorem exec_reset (s : State) :
    exec .reset s = .next { s with slices := List.replicate s.slices.length Slice.zero } := by
  have : s.slices.map resetReader = List.replicate s.slices.length Slice.zero :=
    List.map_eq_replicate_iff.mpr fun _ _ => rfl
  simp [exec, execReset, this]

/-- Slices at their reset values under legal parameters have the invariant, whatever stands on the
ports (R22, R23). -/
theorem State.inv_of_slices_zero {s : State} (hl : s.config.Legal)
    (hz : ∀ c ∈ s.slices, c = Slice.zero) : s.Inv where
  legal := hl
  slices_inv := fun c hc => hz c hc ▸ zero_inv _

theorem resetOf_inv {p : Config} (hl : p.Legal) (a : StepInput) (l : List StepInput) :
    State.Inv { State.resetOf p with input := a, schedule := l } :=
  State.inv_of_slices_zero
    (by simpa [State.config, State.resetOf] using hl)
    (fun _ hc => List.eq_of_mem_replicate hc)

/-- A step writes no parameter, and each reader's slice becomes what its own event makes of it. -/
theorem step_inv {s t : State} (hs : s.Inv) (h : step s = .next t) : t.Inv := by
  obtain ⟨-, -, hT, -⟩ := hs.legal
  obtain ⟨-, -, rfl⟩ := step_next_eq h
  refine ⟨by simpa [State.config] using hs.legal, fun c hc => ?_⟩
  obtain ⟨r, hr, rfl⟩ := List.mem_mapIdx.mp hc
  simpa using reactTo_inv (s.eventOf r) hT (hs.slices_inv _ (List.getElem_mem hr))

/-- A run is as many steps, so it keeps what a step keeps. -/
theorem runSteps_inv (k : Nat) {s t : State} (hs : s.Inv) (h : runSteps k s = .next t) : t.Inv := by
  induction k generalizing s with
  | zero =>
    obtain rfl : s = t := by simpa [runSteps] using h
    exact hs
  | succ k ih =>
    unfold runSteps at h
    split at h
    next u hu => exact ih (step_inv hs hu) h
    next => cases h
    next => cases h

/-- Settles O46: the step in closed form reduces it to `reactTo_inv`, one event on one slice. -/
theorem stepKeepsInvariant : Obligations.StepKeepsInvariant := by
  unfold Obligations.StepKeepsInvariant
  intro s t hs h
  exact step_inv hs h

/-- Settles O47: the reset state has the invariant, every step keeps it, and it bounds `bit_count`
(R23.1) and bars the cause OVERRUN (R113). -/
theorem noOverrunInRunFromReset : Obligations.NoOverrunInRunFromReset := by
  unfold Obligations.NoOverrunInRunFromReset
  intro p a l k t hl h c hc
  have hi := (runSteps_inv k (resetOf_inv hl a l) h).slices_inv c hc
  exact ⟨hi.count_le, fun hs => (hi.strobe_ok hs).2⟩

/-- Settles O22: the slice written out in the statement is `Slice.zero`. -/
theorem resetClearsEveryField : Obligations.ResetClearsEveryField := by
  unfold Obligations.ResetClearsEveryField
  intro s
  exact exec_reset s

/-- Settles O45: both states hold `Slice.zero` for every reader. -/
theorem resetStateHasInvariant : Obligations.ResetStateHasInvariant := by
  unfold Obligations.ResetStateHasInvariant
  refine ⟨fun c a l hl => resetOf_inv hl a l, fun s t hl h => ?_⟩
  rw [exec_reset] at h
  cases h
  exact State.inv_of_slices_zero (by simpa [State.config] using hl)
    (fun _ hc => List.eq_of_mem_replicate hc)

end Sys2Proof.Machine
end

section
/-! Which events write `code_valid`, `bit_count` and the frame timer (10_state.md R11, R17, R18). -/

namespace Sys2Proof.Machine

variable {T : Nat} {v : Bool} {c : Slice}

/-- The events that name reader `r` (R42). -/
theorem event_cases_of_reader {i : Instr} {r : Nat} (h : i.reader? = some r) :
    i = .nop r ∨ i = .tick r ∨ i = .bit0 r ∨ i = .bit1 r ∨ i = .collide r := by
  cases i <;> simp_all [Instr.reader?]

/-- R62 to R64: a bit inside a frame leaves `code_valid` alone. -/
theorem position_of_bitReader_codeValid_ne
    (h : (bitReader T v c).rs.codeValid ≠ c.rs.codeValid) :
    c.rs.bitCount.toNat = 0 ∨ 25 ≤ c.rs.bitCount.toNat := by
  obtain hp | ⟨hp, hp'⟩ | ⟨hp, hp'⟩ | ⟨hp, hp'⟩ | hp | hp := position_cases c.rs.bitCount
  · exact .inl hp
  · rw [bitReader_facility hp hp'] at h; exact absurd rfl h
  · rw [bitReader_cardEven hp hp'] at h; exact absurd rfl h
  · rw [bitReader_cardOdd hp hp'] at h; exact absurd rfl h
  · exact .inr (by omega)
  · exact .inr (by omega)

/-- R84: a TICK under which no timer expires leaves the Reader State as it is. -/
theorem tickReader_rs (h : c.tm.armed = true → 2 ≤ c.tm.count) : (tickReader c).rs = c.rs := by
  cases ha : c.tm.armed with
  | false => rw [tickReader_disarmed ha]; rfl
  | true => rw [tickReader_counts ha (h ha)]; rfl

/-- R85, R86: a TICK, expiring or not, writes no field of the Reader State but `bit_count`. -/
theorem tickReader_codeValid : (tickReader c).rs.codeValid = c.rs.codeValid := by
  by_cases h : c.tm.armed = true → 2 ≤ c.tm.count
  · rw [tickReader_rs h]
  · obtain ⟨ha, hc⟩ : c.tm.armed = true ∧ c.tm.count ≤ 1 := by
      simpa [Nat.lt_succ_iff] using h
    by_cases hb : c.rs.bitCount = 0
    · rw [tickReader_expires_idle ha hc hb]; rfl
    · rw [tickReader_times_out ha hc hb]; rfl

section
variable {i : Instr} {r : Nat} (hi : i.reader? = some r)
include hi

/-- R17, for one slice. -/
theorem writers_of_codeValid (h : (reactTo T i c).rs.codeValid ≠ c.rs.codeValid) :
    (i = .bit0 r ∨ i = .bit1 r) ∧ (c.rs.bitCount.toNat = 0 ∨ 25 ≤ c.rs.bitCount.toNat) := by
  obtain rfl | rfl | rfl | rfl | rfl := event_cases_of_reader hi
  · exact absurd rfl h
  · exact absurd tickReader_codeValid h
  · exact ⟨.inl rfl, position_of_bitReader_codeValid_ne h⟩
  · exact ⟨.inr rfl, position_of_bitReader_codeValid_ne h⟩
  · exact absurd rfl h

/-- R11, for one slice. -/
theorem writers_of_bitCount (h : (reactTo T i c).rs.bitCount ≠ c.rs.bitCount) :
    (i = .bit0 r ∨ i = .bit1 r) ∨ (i = .tick r ∧ c.tm.armed = true ∧ c.tm.count ≤ 1) := by
  obtain rfl | rfl | rfl | rfl | rfl := event_cases_of_reader hi
  · exact absurd rfl h
  · have hn : ¬(c.tm.armed = true → 2 ≤ c.tm.count) := fun hk => h (by
      rw [reactTo, tickReader_rs hk])
    exact .inr ⟨rfl, by simpa [Nat.lt_succ_iff] using hn⟩
  · exact .inl (.inl rfl)
  · exact .inl (.inr rfl)
  · exact absurd rfl h

/-- R18, for one slice. -/
theorem writers_of_timer (h : (reactTo T i c).tm ≠ c.tm) :
    (i = .bit0 r ∨ i = .bit1 r) ∨ (i = .tick r ∧ c.tm.armed = true) := by
  obtain rfl | rfl | rfl | rfl | rfl := event_cases_of_reader hi
  · exact absurd rfl h
  · cases ha : c.tm.armed with
    | false => exact absurd (by rw [reactTo, tickReader_disarmed ha, clearStrobe_tm]) h
    | true => exact .inr ⟨rfl, rfl⟩
  · exact .inl (.inl rfl)
  · exact .inl (.inr rfl)
  · exact absurd rfl h

end

/-- Settles O43: an event reaches the slice of its own reader only, and there each field has the
writers just listed. -/
theorem writersOfFrameControl : Obligations.WritersOfFrameControl := by
  unfold Obligations.WritersOfFrameControl
  intro s t i r c c' h hc hc' hne
  obtain ⟨rfl, -⟩ | ⟨q, d, hq, hd, rfl⟩ := exec_next_cases h
  · exact absurd rfl hne
  by_cases hqr : q = r
  · subst hqr
    obtain rfl : d = c := by simpa [hd] using hc
    obtain rfl : reactTo s.timeoutTicks i d = c' := by
      simpa [(List.getElem?_eq_some_iff.mp hd).1] using hc'
    exact ⟨writers_of_codeValid hq, writers_of_bitCount hq, writers_of_timer hq⟩
  · obtain rfl : c = c' := by simpa [List.getElem?_set_ne hqr, hc] using hc'
    exact ⟨absurd rfl, absurd rfl, absurd rfl⟩

end Sys2Proof.Machine
end

section
/-! The contents of a frame that is still Open (10_state.md R14, R23.4, R23.5): which bits stand in
which field after each accepted bit, and that a short gap leaves them there. -/

namespace Sys2Proof.Machine

/-- A bit at a place inside the window of `k` places from place `d` is the window's last. -/
theorem window_append_inside {bs : List Bool} {d k : Nat} (b : Bool) (h : d ≤ bs.length)
    (h' : bs.length < d + k) :
    ((bs ++ [b]).drop d).take k = (bs.drop d).take k ++ [b] := by
  rw [List.drop_append_of_le_length h, List.take_append, List.length_drop]
  congr 1
  exact List.take_of_length_le (by simp; omega)

/-- A bit at a place past the window does not show in it. -/
theorem window_append_past {bs : List Bool} {d k : Nat} (b : Bool) (h : d + k ≤ bs.length) :
    ((bs ++ [b]).drop d).take k = (bs.drop d).take k := by
  rw [List.drop_append_of_le_length (by omega), List.take_append_of_le_length (by simp; omega)]

/-- Places from `d` on are empty until a bit stands at place `d`. -/
theorem drop_append_before {bs : List Bool} {d : Nat} (b : Bool) (h : bs.length < d) :
    (bs ++ [b]).drop d = bs.drop d := by
  rw [List.drop_of_length_le (by simp; omega), List.drop_of_length_le h.le]

/-- There are no more ones in a window than it has places. -/
theorem count_window_le (bs : List Bool) (d k : Nat) (b : Bool) :
    ((bs.drop d).take k).count b ≤ k :=
  List.count_le_length.trans (by simp)

/-- A parity sum of at most twelve ones has room for the next. -/
theorem addBit_count {v : Bool} {x : ParitySum} {l : List Bool} (hx : x.toNat = l.count true)
    (hl : l.length ≤ 12) : (addBit x v).toNat = (l ++ [v]).count true := by
  have := List.count_le_length (a := true) (l := l)
  rw [addBit_toNat x v (by omega), hx, List.count_append]
  cases v <;> rfl

/-- A field narrower than its bits so far takes the next bit at its low end (R14). -/
theorem shiftIn_bitsValue {v : Bool} {w : Nat} {f : BitVec w} {l : List Bool}
    (hf : f.toNat = bitsValue l) (hl : l.length < w) : (shiftIn f v).toNat = bitsValue (l ++ [v]) := by
  rw [(shiftIn_lt f v (hf ▸ bitsValue_lt l) hl).1, hf, bitsValue_append]

/-- The Reader State while the bits `bs` of a frame, and no others, have come. -/
structure ReaderState.Holds (rs : ReaderState) (bs : List Bool) : Prop where
  /-- R11. -/
  bitCount : rs.bitCount.toNat = bs.length
  /-- R16. -/
  leading : some rs.leadingParityBit = bs.head?
  /-- R14: positions 1-8. -/
  facility : rs.facilityCode.toNat = bitsValue ((bs.drop 1).take 8)
  /-- R14: positions from 9 on. -/
  card : rs.cardCode.toNat = bitsValue (bs.drop 9)
  /-- R23.4: positions 1-12. -/
  sum0 : rs.parity0Sum.toNat = ((bs.drop 1).take 12).count true
  /-- R23.4: positions from 13 on. -/
  sum1 : rs.parity1Sum.toNat = (bs.drop 13).count true
  /-- R23.3. -/
  clear : rs.fullCode = 0 ∧ rs.trailingParityBit = false ∧ rs.codeValid = false

namespace ReaderState.Holds

variable {T : Nat} {v : Bool} {c : Slice} {bs : List Bool}

/-- Position 0 forgets whatever the Reader State held (R61). -/
theorem start (hc : c.rs.bitCount.toNat = 0) : (bitReader T v c).rs.Holds [v] := by
  rw [bitReader_start hc]
  constructor <;> simp [acceptStart, bitsValue]

theorem head_append (h : c.rs.Holds bs) (hp : 1 ≤ c.rs.bitCount.toNat) :
    some c.rs.leadingParityBit = (bs ++ [v]).head? := by
  rw [h.bitCount] at hp
  rw [h.leading, List.head?_append_of_ne_nil _ (List.length_pos_iff.mp hp)]

theorem bumpCount_append (h : c.rs.Holds bs) (hp : c.rs.bitCount.toNat ≤ 24) :
    (bumpCount c.rs.bitCount).toNat = (bs ++ [v]).length := by
  rw [bumpCount_toNat _ hp, h.bitCount]; simp

/-- Each accepted bit inside a frame goes to its own field and its own sum (R62 to R64). -/
theorem append_bit (h : c.rs.Holds bs) (hp : 1 ≤ bs.length) (hp' : bs.length ≤ 24) :
    (bitReader T v c).rs.Holds (bs ++ [v]) := by
  rw [← h.bitCount] at hp hp'
  have hl := h.bitCount
  obtain h0 | ⟨hlo, hhi⟩ | ⟨hlo, hhi⟩ | ⟨hlo, hhi⟩ | h0 | h0 := position_cases c.rs.bitCount
  · omega
  · rw [bitReader_facility hlo hhi]
    exact {
      bitCount := h.bumpCount_append hp'
      leading := h.head_append hp
      facility := by
        rw [window_append_inside v (by omega) (by omega)]
        exact shiftIn_bitsValue h.facility (by simp; omega)
      card := by rw [drop_append_before v (by omega)]; exact h.card
      sum0 := by
        rw [window_append_inside v (by omega) (by omega)]
        exact addBit_count h.sum0 (by simp)
      sum1 := by rw [drop_append_before v (by omega)]; exact h.sum1
      clear := h.clear }
  · rw [bitReader_cardEven hlo hhi]
    exact {
      bitCount := h.bumpCount_append hp'
      leading := h.head_append hp
      facility := by rw [window_append_past v (by omega)]; exact h.facility
      card := by
        rw [List.drop_append_of_le_length (by omega)]
        exact shiftIn_bitsValue h.card (by simp; omega)
      sum0 := by
        rw [window_append_inside v (by omega) (by omega)]
        exact addBit_count h.sum0 (by simp)
      sum1 := by rw [drop_append_before v (by omega)]; exact h.sum1
      clear := h.clear }
  · rw [bitReader_cardOdd hlo hhi]
    exact {
      bitCount := h.bumpCount_append hp'
      leading := h.head_append hp
      facility := by rw [window_append_past v (by omega)]; exact h.facility
      card := by
        rw [List.drop_append_of_le_length (by omega)]
        exact shiftIn_bitsValue h.card (by simp; omega)
      sum0 := by rw [window_append_past v (by omega)]; exact h.sum0
      sum1 := by
        rw [List.drop_append_of_le_length (by omega)]
        exact addBit_count h.sum1 (by simp; omega)
      clear := h.clear }
  · omega
  · omega

end ReaderState.Holds

section
variable {T : Nat} {c : Slice}

/-- What a list of events makes of one slice. -/
def reactAll (T : Nat) (es : List Instr) (c : Slice) : Slice :=
  es.foldl (fun c i => reactTo T i c) c

@[simp] theorem reactAll_nil : reactAll T [] c = c := rfl
@[simp] theorem reactAll_cons (i : Instr) (es : List Instr) :
    reactAll T (i :: es) c = reactAll T es (reactTo T i c) := rfl
@[simp] theorem reactAll_append (es es' : List Instr) :
    reactAll T (es ++ es') c = reactAll T es' (reactAll T es c) :=
  List.foldl_append

@[simp] theorem reactTo_ofBit (r : Nat) (v : Bool) :
    reactTo T (.ofBit r v) c = bitReader T v c := by
  cases v <;> rfl

/-- A bit below position 25 leaves a full timer running and no notification (R81, R101). -/
theorem bitReader_open (v : Bool) (h : c.rs.bitCount.toNat ≤ 24) :
    (bitReader T v c).tm = ⟨true, T⟩ ∧ (bitReader T v c).out.finStrobe = false := by
  obtain hp | ⟨hp, hp'⟩ | ⟨hp, hp'⟩ | ⟨hp, hp'⟩ | hp | hp := position_cases c.rs.bitCount
  · rw [bitReader_start hp]; exact ⟨rfl, rfl⟩
  · rw [bitReader_facility hp hp']; exact ⟨rfl, rfl⟩
  · rw [bitReader_cardEven hp hp']; exact ⟨rfl, rfl⟩
  · rw [bitReader_cardOdd hp hp']; exact ⟨rfl, rfl⟩
  · omega
  · omega

/-- R84, R91: fewer ticks than the counter holds come off the counter and change nothing else, with
any NOPs among them. -/
theorem reactAll_gapEvents (r : Nat) {gap : List Bool} (ha : c.tm.armed = true)
    (h : ticksIn gap < c.tm.count) :
    reactAll T (gapEvents r gap) c =
      { c with
        tm := ⟨true, c.tm.count - ticksIn gap⟩
        out := if gap = [] then c.out else (clearStrobe c).out } := by
  induction gap generalizing c with
  | nil =>
    obtain ⟨rs, ⟨a, n⟩, out⟩ := c
    simp_all [gapEvents, ticksIn]
  | cons t gap ih =>
    cases t with
    | false =>
      have h' : ticksIn gap < c.tm.count := by simpa [ticksIn] using h
      have := ih (c := nopReader c) ha h'
      simp_all [gapEvents, reactTo, nopReader, ticksIn]
    | true =>
      have h' : ticksIn gap + 1 < c.tm.count := by simpa [ticksIn] using h
      have := ih (c := { clearStrobe c with tm := ⟨true, c.tm.count - 1⟩ }) rfl (by simp; omega)
      simp_all [gapEvents, reactTo, tickReader_counts ha (by omega), ticksIn]
      omega

end

/-- A reader in the middle of a frame, the bits `bs` of which have come. -/
structure Slice.InFrame (c : Slice) (bs : List Bool) : Prop where
  /-- The bits are in their fields. -/
  holds : c.rs.Holds bs
  /-- R18: an expiry is pending. -/
  armed : c.tm.armed = true
  /-- R104. -/
  quiet : c.out.finStrobe = false

namespace Slice.InFrame

variable {T : Nat} {c : Slice} {bs : List Bool}

/-- A short gap leaves the frame as it is. -/
theorem after_gap (h : c.InFrame bs) (r : Nat) {gap : List Bool} (hg : ticksIn gap < c.tm.count) :
    (reactAll T (gapEvents r gap) c).InFrame bs := by
  rw [reactAll_gapEvents r h.armed hg]
  refine ⟨h.holds, rfl, ?_⟩
  by_cases hn : gap = [] <;> simp [hn, h.quiet]

/-- A bit below position 25 that puts `bs` in the fields, and a short gap after it. -/
theorem of_bit_gap (r : Nat) (v : Bool) {gap : List Bool} (hc : c.rs.bitCount.toNat ≤ 24)
    (hb : (bitReader T v c).rs.Holds bs) (hg : ticksIn gap < T) :
    (reactAll T (.ofBit r v :: gapEvents r gap) c).InFrame bs := by
  obtain ⟨ht, hq⟩ := bitReader_open (T := T) v hc
  rw [reactAll_cons, reactTo_ofBit]
  exact after_gap ⟨hb, by rw [ht], hq⟩ r (by rwa [ht])

/-- Bits with short gaps extend a frame that has room for them. -/
theorem after_bits (h : c.InFrame bs) (hp : 1 ≤ bs.length) (r : Nat)
    (bits : List (Bool × List Bool)) (hl : bs.length + bits.length ≤ 25)
    (hg : gapPremise T bits) :
    (reactAll T (spacedBits r bits) c).InFrame (bs ++ bits.map Prod.fst) := by
  induction bits generalizing c bs with
  | nil => simpa [spacedBits] using h
  | cons b bits ih =>
    obtain ⟨hb, hg⟩ := List.forall_mem_cons.mp hg
    rw [List.length_cons] at hl
    have hn : c.rs.bitCount.toNat ≤ 24 := by rw [h.holds.bitCount]; omega
    have h1 := of_bit_gap r b.1 hn (h.holds.append_bit hp (by omega)) hb
    simpa [spacedBits] using ih h1 (by simp) (by simp; omega) hg

end Slice.InFrame

/-- From any Idle reader, up to 25 bits with short gaps are a frame in progress. -/
theorem reactAll_spacedBits_inFrame {T : Nat} {c : Slice} (r : Nat)
    {bits : List (Bool × List Bool)} (hc : c.rs.bitCount = 0) (h1 : 1 ≤ bits.length)
    (h25 : bits.length ≤ 25) (hg : gapPremise T bits) :
    (reactAll T (spacedBits r bits) c).InFrame (bits.map Prod.fst) := by
  obtain _ | ⟨b, bits⟩ := bits
  · simp at h1
  obtain ⟨hb, hg⟩ := List.forall_mem_cons.mp hg
  have h0 : c.rs.bitCount.toNat = 0 := by simp [hc]
  have hs := Slice.InFrame.of_bit_gap r b.1 (by omega) (ReaderState.Holds.start h0) hb
  simpa [spacedBits] using hs.after_bits (by simp) r bits (by simpa [Nat.add_comm] using h25) hg

/-- The events of a spaced-out frame all reach its reader. -/
theorem mem_spacedBits {r : Nat} {bits : List (Bool × List Bool)} {i : Instr}
    (h : i ∈ spacedBits r bits) : i.reader? = some r ∧ i ≠ .collide r := by
  obtain ⟨⟨v, gap⟩, -, hi⟩ := List.mem_flatMap.mp h
  obtain rfl | hi := List.mem_cons.mp hi
  · cases v <;> simp [Instr.ofBit, Instr.reader?]
  · obtain ⟨t, -, rfl⟩ := List.mem_map.mp hi
    cases t <;> simp [Instr.reader?]

/-- A spaced-out frame acts on the slice of its reader alone. -/
theorem runEvents_spacedBits {s : State} {r : Nat} {c : Slice} (hc : s.slices[r]? = some c)
    (bits : List (Bool × List Bool)) :
    runEvents (spacedBits r bits) s =
      .next (s.setReader r (reactAll s.timeoutTicks (spacedBits r bits) c)) :=
  runEvents_one_reader _ (fun _ => mem_spacedBits) s c hc

/-- Settles O52: by induction on the bits, each of which extends the frame in progress and each gap
of which leaves it. -/
theorem partialFrameContents : Obligations.PartialFrameContents := by
  unfold Obligations.PartialFrameContents
  intro s r c bits hc h0 h1 h25 hg bs
  obtain ⟨hh, ha, hq⟩ := reactAll_spacedBits_inFrame r h0 h1 h25 hg
  obtain ⟨hf, ht, hv⟩ := hh.clear
  exact ⟨_, _, runEvents_spacedBits hc bits, rfl, by simpa using hh.bitCount, hh.leading,
    hh.facility, hh.card, hh.sum0, hh.sum1, hf, ht, hv, ha, hq⟩

end Sys2Proof.Machine
end

section
/-! Readers apart (20_memory.md R31, R33): which events complete, what an event leaves unchanged, and
that a step gives each reader what its own event alone makes of it. -/

namespace Sys2Proof.Machine

/-- An event that names no reader is RESET (R43, R130). -/
theorem eq_reset_of_reader?_eq_none {i : Instr} (h : i.reader? = none) : i = .reset := by
  cases i with
  | reset => rfl
  | nop r | tick r | bit0 r | bit1 r | collide r => cases h

/-- An event of a reader, COLLIDE apart, completes exactly where the block has that reader (R31). -/
theorem exec_completes_iff_of_reader {i : Instr} {r : Nat} (hi : i.reader? = some r)
    (hc : i ≠ .collide r) (s : State) : (∃ t, exec i s = .next t) ↔ r < s.slices.length := by
  rw [exec_of_reader hi hc]
  constructor
  · rintro ⟨t, h⟩
    obtain ⟨c, hr, -⟩ := onReader_next_iff.mp h
    exact (List.getElem?_eq_some_iff.mp hr).1
  · intro hr
    exact ⟨_, onReader_present _ (List.getElem?_eq_getElem hr)⟩

/-- The parameters, the number of readers and the ports are no event's to write. -/
theorem exec_next_frame {i : Instr} {s t : State} (h : exec i s = .next t) :
    t.tw = s.tw ∧ t.timeoutTicks = s.timeoutTicks ∧ t.input = s.input ∧ t.schedule = s.schedule ∧
      t.slices.length = s.slices.length := by
  obtain ⟨-, rfl⟩ | ⟨r, c, -, -, rfl⟩ := exec_next_cases h <;> simp

/-- One reader's slice after an event: changed where the event is RESET or this reader's own. -/
theorem exec_next_slice {i : Instr} {s t : State} (h : exec i s = .next t) {r : Nat} {c : Slice}
    (hc : s.slices[r]? = some c) :
    t.slices[r]? =
      some (if i.reader? = none ∨ i.reader? = some r then reactTo s.timeoutTicks i c else c) := by
  obtain ⟨rfl, rfl⟩ | ⟨q, d, hq, hd, rfl⟩ := exec_next_cases h
  · simp [hc, Instr.reader?, reactTo]
  · obtain ⟨hlt, -⟩ := List.getElem?_eq_some_iff.mp hd
    by_cases hqr : q = r
    · subst hqr
      obtain rfl : d = c := Option.some.inj (hd.symm.trans hc)
      simp [hq, hlt]
    · simp [hq, hqr, hc]

/-- With `rst` high every reader's event is RESET (R42). -/
theorem eventOf_of_rst {s : State}
    (h : s.input.word.testBit (2 * s.slices.length + 1) = true) (r : Nat) :
    s.eventOf r = .reset := by
  rw [State.eventOf, State.codeOf, eventCode, decodeEvent_eventBits, if_pos h]

/-- In a step that answers a next state each reader's own event, run alone, answers one. -/
theorem step_next_own_event_completes {s t : State} (h : step s = .next t) {r : Nat}
    (hr : r < s.slices.length) : ∃ u, exec (s.eventOf r) s = .next u := by
  cases h0 : s.input.word.testBit (2 * s.slices.length + 1) with
  | true => exact ⟨_, eventOf_of_rst h0 r ▸ exec_reset s⟩
  | false =>
    obtain ⟨hi, hc⟩ := step_next_event h h0 hr
    exact (exec_completes_iff_of_reader hi hc s).mpr hr

/-- Settles O16: the slice after the step is `reactTo` of the reader's own event, and so is the slice
after that event alone. -/
theorem stepGivesEachReaderItsOwnEvent : Obligations.StepGivesEachReaderItsOwnEvent := by
  unfold Obligations.StepGivesEachReaderItsOwnEvent
  intro s t h
  obtain ⟨htw, hT, hn, -, -⟩ := step_next_frame h
  refine ⟨htw, hT, hn, fun r hr => ?_⟩
  obtain ⟨u, hu⟩ := step_next_own_event_completes h hr
  have hc : s.slices[r]? = some s.slices[r] := List.getElem?_eq_getElem hr
  have own : (s.eventOf r).reader? = none ∨ (s.eventOf r).reader? = some r :=
    (decodeEvent_reader r (s.codeOf r)).imp_left (congrArg Instr.reader?)
  refine ⟨u, hu, ?_⟩
  rw [step_next_reader h hc, exec_next_slice hu hc, if_pos own]

/-- Settles O17: an event writes the slice of its reader, RESET every slice, and no other field. -/
theorem eventChangesOnlyItsReader : Obligations.EventChangesOnlyItsReader := by
  unfold Obligations.EventChangesOnlyItsReader
  intro s t i h
  obtain ⟨htw, hT, hin, hsch, hn⟩ := exec_next_frame h
  exact ⟨htw, hT, hin, hsch, hn, fun _ _ hc => exec_next_slice h hc⟩

/-- Settles O35: RESET always completes, and an event of a reader completes where the reader
exists, which is when it is well formed. -/
theorem eventsOfPresentReadersComplete : Obligations.EventsOfPresentReadersComplete := by
  unfold Obligations.EventsOfPresentReadersComplete
  intro s i hi
  cases hr : i.reader? with
  | none =>
    obtain rfl := eq_reset_of_reader?_eq_none hr
    exact iff_of_true ⟨_, exec_reset s⟩ rfl
  | some r =>
    rw [exec_completes_iff_of_reader hr (hi r)]
    simp [Instr.wellFormed, hr]

end Sys2Proof.Machine
end

section
/-! Event codes, step words and trace statements (30_encoding.md R41, R42, R51): every code is the
one event whose mask it matches, and the step word of a list of events is read back line by line. -/

namespace Sys2Proof.Machine

/-- A code is put together from its four bits (R41). -/
theorem eventBits_getLsbD (e : EventCode) :
    eventBits (e.getLsbD 3) (e.getLsbD 2) (e.getLsbD 1) (e.getLsbD 0) = e := by
  revert e; decide

/-- Settles O1: each code is evaluated. -/
theorem sixteenCodesDecode : Obligations.SixteenCodesDecode := by
  unfold Obligations.SixteenCodesDecode
  intro r
  and_intros <;> rfl

/-- Settles O3: `eventCode` is put together from these four bits. -/
theorem eventCodeTakesFourBitsOfStepWord : Obligations.EventCodeTakesFourBitsOfStepWord := by
  unfold Obligations.EventCodeTakesFourBitsOfStepWord
  intro n S r _
  exact ⟨eventBits_bit3 .., eventBits_bit2 .., eventBits_bit1 .., eventBits_bit0 ..⟩

/-- The patterns of R42 cover all codes: a code has the match of its event under the event's
mask. -/
theorem and_maskBits_decodeEvent (r : Nat) (e : EventCode) :
    e &&& (decodeEvent r e).maskBits = (decodeEvent r e).matchBits := by
  rw [← eventBits_getLsbD e, decodeEvent_eventBits]
  generalize e.getLsbD 3 = rst, e.getLsbD 2 = tick, e.getLsbD 1 = d1, e.getLsbD 0 = d0
  cases rst with
  | true =>
    show eventBits true tick d1 d0 &&& 0b1000#4 = 0b1000#4
    revert tick d1 d0; decide
  | false =>
    cases d1 <;> cases d0
    · cases tick
      · show eventBits false false false false &&& 0b1111#4 = 0b0000#4; decide
      · show eventBits false true false false &&& 0b1111#4 = 0b0100#4; decide
    · show eventBits false tick false true &&& 0b1011#4 = 0b0001#4
      revert tick; decide
    · show eventBits false tick true false &&& 0b1011#4 = 0b0010#4
      revert tick; decide
    · show eventBits false tick true true &&& 0b1011#4 = 0b0011#4
      revert tick; decide

/-- The patterns of R42 are disjoint: a code that has the match of a reader's event under the
event's mask decodes to it. -/
theorem decodeEvent_of_and_maskBits {r : Nat} {e : EventCode} {i : Instr}
    (hi : i.reader? = none ∨ i.reader? = some r) (h : e &&& i.maskBits = i.matchBits) :
    decodeEvent r e = i := by
  have hbit (k : Nat) : (e.getLsbD k && i.maskBits.getLsbD k) = i.matchBits.getLsbD k := by
    rw [← BitVec.getLsbD_and, h]
  have h3 := hbit 3
  have h2 := hbit 2
  have h1 := hbit 1
  have h0 := hbit 0
  rw [← eventBits_getLsbD e, decodeEvent_eventBits]
  obtain hi | hi := hi
  · obtain rfl := eq_reset_of_reader?_eq_none hi
    simp_all [Instr.maskBits, Instr.matchBits]
  · obtain rfl | rfl | rfl | rfl | rfl := event_cases_of_reader hi <;>
      simp_all [Instr.maskBits, Instr.matchBits, Instr.ofBit]

/-- Settles O2: the patterns cover all codes and are disjoint. -/
theorem codeIsEventIffMaskMatches : Obligations.CodeIsEventIffMaskMatches := by
  unfold Obligations.CodeIsEventIffMaskMatches
  intro r e i
  constructor
  · rintro rfl
    exact ⟨(decodeEvent_reader r e).imp_left (congrArg Instr.reader?),
      and_maskBits_decodeEvent r e⟩
  · rintro ⟨hi, h⟩
    exact decodeEvent_of_and_maskBits hi h

/-- Only RESET raises `rst` (R42). -/
theorem matchBits_rst {i : Instr} {r : Nat} (hi : i.reader? = some r) :
    i.matchBits.getLsbD 3 = false := by
  obtain rfl | rfl | rfl | rfl | rfl := event_cases_of_reader hi <;> simp [Instr.matchBits]

/-- Only TICK raises `tick` (R42). -/
theorem matchBits_tick (i : Instr) : i.matchBits.getLsbD 2 = i.isTick := by
  cases i <;> simp [Instr.matchBits, Instr.isTick]

/-- An event is decoded from its own two lines, and from `tick` where it does not ignore it. -/
theorem decodeEvent_lines {i : Instr} {r : Nat} {tick : Bool} (hi : i.reader? = some r)
    (ht : i.isTick = true → tick = true) (hn : i.isNop = true → tick = false) :
    decodeEvent r (eventBits false tick (i.matchBits.getLsbD 1) (i.matchBits.getLsbD 0)) = i := by
  rw [decodeEvent_eventBits]
  obtain rfl | rfl | rfl | rfl | rfl := event_cases_of_reader hi
  · simp [Instr.matchBits, hn rfl]
  · simp [Instr.matchBits, ht rfl]
  · simp [Instr.matchBits, Instr.ofBit]
  · simp [Instr.matchBits, Instr.ofBit]
  · simp [Instr.matchBits]

section
variable {r : Nat} {tick d1 d0 : Bool}

/-- With `rst` low the event of a code pulses the lines the code pulses, `d0` for `v = 0` and `d1`
for `v = 1`. -/
theorem decodeEvent_pulse (v : Bool) :
    (decodeEvent r (eventBits false tick d1 d0)).matchBits.getLsbD v.toNat =
      if v then d1 else d0 := by
  rw [decodeEvent_eventBits]
  cases d1 <;> cases d0
  · cases tick <;> cases v <;> simp [Instr.matchBits]
  · cases v <;> simp [Instr.matchBits, Instr.ofBit]
  · cases v <;> simp [Instr.matchBits, Instr.ofBit]
  · cases v <;> simp [Instr.matchBits]

/-- The event is TICK where `tick` is high and there is no pulse. -/
theorem isTick_decodeEvent :
    (decodeEvent r (eventBits false tick d1 d0)).isTick = (tick && !d1 && !d0) := by
  rw [decodeEvent_eventBits]
  cases d1 <;> cases d0 <;> cases tick <;> rfl

/-- The event is NOP where `tick` is low and there is no pulse. -/
theorem isNop_decodeEvent :
    (decodeEvent r (eventBits false tick d1 d0)).isNop = (!tick && !d1 && !d0) := by
  rw [decodeEvent_eventBits]
  cases d1 <;> cases d0 <;> cases tick <;> rfl

end

/-- A word without a bit above `tick` has the block's width, and `rst` low in it. -/
theorem decodeStep_of_lines {n S : Nat} (h : ∀ k, 2 * n < k → S.testBit k = false) :
    decodeStep n S =
      .events ((List.range n).map fun r => decodeEvent r
        (eventBits false (S.testBit (2 * n)) (S.testBit (2 * r + 1)) (S.testBit (2 * r)))) := by
  have hw : S < 2 ^ (2 * n + 2) := Nat.lt_pow_two_of_testBit S fun k hk => h k (by omega)
  have h0 := h (2 * n + 1) (by omega)
  obtain ⟨h1, -⟩ | ⟨-, h1, -⟩ | ⟨-, -, h1⟩ := decodeStep_cases n S
  · omega
  · simp [h0] at h1
  · simpa only [eventCode, h0] using h1

/-- The step word of RESET is `rst` alone (R41). -/
theorem encodeStep_reset (n : Nat) : encodeStep n [.reset] = 2 ^ (2 * n + 1) := by
  simp [encodeStep, encodeInstr, encodeEvent, placeCode, Instr.matchBits, Nat.one_shiftLeft]

section
variable {n : Nat} {f : Nat → Instr} (hf : ∀ r, (f r).reader? = some r)
include hf

/-- The bits of the step word of one event for each reader: `tick` and the readers' lines. -/
theorem encodeStep_readers_testBit (k : Nat) :
    (encodeStep n ((List.range n).map f)).testBit k =
      (List.range n).any fun r =>
        (f r).isTick && k == 2 * n || (f r).matchBits.getLsbD 1 && k == 2 * r + 1 ||
          (f r).matchBits.getLsbD 0 && k == 2 * r := by
  rw [encodeStep_testBit, List.any_map]
  congr 1
  funext r
  simp only [Function.comp_apply, encodeInstr, encodeEvent, hf, Option.getD_some,
    placeCode_testBit, matchBits_rst (hf r), matchBits_tick, Bool.false_and, Bool.false_or]

/-- No event of a reader raises `rst` or reaches past it. -/
theorem encodeStep_readers_above {k : Nat} (hk : 2 * n < k) :
    (encodeStep n ((List.range n).map f)).testBit k = false := by
  rw [encodeStep_readers_testBit hf, List.any_eq_false]
  intro r hr
  have := List.mem_range.mp hr
  simp [show k ≠ 2 * n by omega, show k ≠ 2 * r + 1 by omega, show k ≠ 2 * r by omega]

/-- The shared `tick` is high where some event is a TICK. -/
theorem encodeStep_readers_tick :
    (encodeStep n ((List.range n).map f)).testBit (2 * n) =
      (List.range n).any fun r => (f r).isTick := by
  rw [encodeStep_readers_testBit hf, Bool.eq_iff_iff, List.any_eq_true, List.any_eq_true]
  refine exists_congr fun r => and_congr_right fun hr => ?_
  have := List.mem_range.mp hr
  simp [show 2 * n ≠ 2 * r + 1 by omega, show n ≠ r by omega]

/-- A line of a reader is pulsed as the reader's own event says. -/
theorem encodeStep_readers_pulse {r : Nat} (hr : r < n) (v : Bool) :
    (encodeStep n ((List.range n).map f)).testBit (2 * r + v.toNat) =
      (f r).matchBits.getLsbD v.toNat := by
  have hv := Bool.toNat_le v
  have hline (q : Nat) :
      ((f q).isTick && 2 * r + v.toNat == 2 * n ||
        (f q).matchBits.getLsbD 1 && 2 * r + v.toNat == 2 * q + 1 ||
        (f q).matchBits.getLsbD 0 && 2 * r + v.toNat == 2 * q) = true ↔
      q = r ∧ (f r).matchBits.getLsbD v.toNat = true := by
    have hn : 2 * r + v.toNat ≠ 2 * n := by omega
    by_cases hq : q = r
    · subst hq; cases v <;> simp [show q ≠ n by omega]; omega
    · simp [hn, hq, show 2 * r + v.toNat ≠ 2 * q + 1 by omega,
        show 2 * r + v.toNat ≠ 2 * q by omega]
  rw [encodeStep_readers_testBit hf, Bool.eq_iff_iff, List.any_eq_true]
  simp only [hline]
  exact ⟨fun ⟨_, _, _, h⟩ => h, fun h => ⟨r, List.mem_range.mpr hr, rfl, h⟩⟩

/-- One event for each reader is read back from its step word unless TICK and NOP stand in one
step. -/
theorem decodeStep_encodeStep_readers
    (ht : ∀ q < n, ∀ r < n, (f q).isTick = true → (f r).isNop = false) :
    decodeStep n (encodeStep n ((List.range n).map f)) = .events ((List.range n).map f) := by
  rw [decodeStep_of_lines fun k => encodeStep_readers_above hf, encodeStep_readers_tick hf]
  congr 1
  refine List.map_congr_left fun r hr => ?_
  have hr' := List.mem_range.mp hr
  have h1 := encodeStep_readers_pulse hf hr' true
  have h0 := encodeStep_readers_pulse hf hr' false
  simp only [Bool.toNat_true, Bool.toNat_false, Nat.add_zero] at h1 h0
  rw [h1, h0]
  refine decodeEvent_lines (hf r) (fun h => ?_) (fun h => ?_)
  · exact List.any_eq_true.mpr ⟨r, hr, h⟩
  · refine List.any_eq_false.mpr fun q hq hqt => ?_
    simpa [h] using ht q (List.mem_range.mp hq) r hr' hqt

end

/-- A list that names the readers in order is one event for each reader. -/
theorem exists_events_of_readers {n : Nat} {es : List Instr}
    (h : es.map Instr.reader? = (List.range n).map some) :
    ∃ f : Nat → Instr, (∀ r, (f r).reader? = some r) ∧ es = (List.range n).map f := by
  have hlen : es.length = n := by simpa using congrArg List.length h
  refine ⟨fun r => es[r]?.getD (.nop r), fun r => ?_, ?_⟩
  · have hr : es[r]?.map Instr.reader? = (List.range n)[r]?.map some := by
      rw [← List.getElem?_map, h, List.getElem?_map]
    by_cases hrn : r < n
    · simpa [hlen, hrn] using hr
    · simp [hlen, hrn, Instr.reader?]
  · apply List.ext_getElem
    · simp [hlen]
    · intro k hk _
      simp [hk]

/-- The two forms of the events of one step (R41, R42). -/
theorem wellFormedStep_iff {n : Nat} {es : List Instr} :
    wellFormedStep n es = true ↔
      es = [.reset] ∨
      ∃ f : Nat → Instr, (∀ r, (f r).reader? = some r) ∧ es = (List.range n).map f ∧
        ∀ q < n, ∀ r < n, (f q).isTick = true → (f r).isNop = false := by
  have htn (f : Nat → Instr) :
      (!(((List.range n).map f).any Instr.isTick && ((List.range n).map f).any Instr.isNop)) =
        true ↔ ∀ q < n, ∀ r < n, (f q).isTick = true → (f r).isNop = false := by
    simp only [List.any_map, Bool.not_eq_true', Bool.and_eq_false_imp, List.any_eq_true,
      List.any_eq_false, List.mem_range, Function.comp_apply, Bool.not_eq_true]
    exact ⟨fun h q hq r hr hqt => h ⟨q, hq, hqt⟩ r hr, fun h ⟨q, hq, hqt⟩ r hr => h q hq r hr hqt⟩
  simp only [wellFormedStep, Bool.or_eq_true, beq_iff_eq, Bool.and_eq_true]
  refine or_congr_right ⟨fun ⟨h, ht⟩ => ?_, ?_⟩
  · obtain ⟨f, hf, rfl⟩ := exists_events_of_readers h
    exact ⟨f, hf, rfl, (htn f).mp ht⟩
  · rintro ⟨f, hf, rfl, ht⟩
    exact ⟨by simp [hf], (htn f).mpr ht⟩

/-- Settles O4: RESET is `rst` alone; the lines of any other step are read back one by one. -/
theorem decodeOfEncodedStep : Obligations.DecodeOfEncodedStep := by
  unfold Obligations.DecodeOfEncodedStep
  intro n es h
  obtain rfl | ⟨f, hf, rfl, ht⟩ := wellFormedStep_iff.mp h
  · have hw : 2 ^ (2 * n + 1) < 2 ^ (2 * n + 2) := Nat.pow_lt_pow_right (by omega) (by omega)
    rw [encodeStep_reset, decodeStep, if_pos hw, if_pos (Nat.testBit_two_pow_self ..)]
  · exact decodeStep_encodeStep_readers hf ht

/-- A word is rejected exactly when it is wider than the block's ports (assumption 6). -/
theorem decodeStep_eq_rejected_iff {n S : Nat} :
    decodeStep n S = .rejected .wordTooWide ↔ 2 ^ (2 * n + 2) ≤ S := by
  obtain ⟨h, hd⟩ | ⟨h, -, hd⟩ | ⟨h, -, hd⟩ := decodeStep_cases n S <;> simp [hd, h]

section
variable {n S : Nat} (h0 : S.testBit (2 * n + 1) = false)
include h0

/-- `E[r]` where `rst` is low (R41). -/
theorem eventCode_of_rst_low (r : Nat) :
    eventCode n S r = eventBits false (S.testBit (2 * n)) (S.testBit (2 * r + 1))
      (S.testBit (2 * r)) := by
  rw [eventCode, h0]

/-- Each reader has an event of its own (R42). -/
theorem decodeEvent_eventCode_reader (r : Nat) :
    (decodeEvent r (eventCode n S r)).reader? = some r :=
  decodeEvent_ne_reset r _ ((eventBits_bit3 ..).trans h0)

/-- The one `tick` of the word bars a mix of TICK and NOP. -/
theorem wellFormedStep_decoded :
    wellFormedStep n ((List.range n).map fun r => decodeEvent r (eventCode n S r)) = true := by
  refine wellFormedStep_iff.mpr (.inr ⟨_, decodeEvent_eventCode_reader h0, rfl, ?_⟩)
  intro q _ r _ hq
  rw [eventCode_of_rst_low h0, isTick_decodeEvent] at hq
  have ht : S.testBit (2 * n) = true := (Bool.and_eq_true_iff.mp (Bool.and_eq_true_iff.mp hq).1).1
  rw [eventCode_of_rst_low h0, isNop_decodeEvent, ht]
  rfl

/-- Every pulse of the word comes back. -/
theorem encodeStep_decoded_pulse {k : Nat} (hk : k < 2 * n) :
    (encodeStep n ((List.range n).map fun r => decodeEvent r (eventCode n S r))).testBit k =
      S.testBit k := by
  obtain ⟨r, v, rfl⟩ : ∃ r, ∃ v : Bool, k = 2 * r + v.toNat := by
    refine ⟨k / 2, k.testBit 0, ?_⟩
    rw [Nat.toNat_testBit]
    omega
  rw [encodeStep_readers_pulse (decodeEvent_eventCode_reader h0) (by omega),
    eventCode_of_rst_low h0, decodeEvent_pulse]
  cases v <;> rfl

/-- `tick` comes back through any reader without a pulse. -/
theorem encodeStep_decoded_tick {r : Nat} (hr : r < n) (hd0 : S.testBit (2 * r) = false)
    (hd1 : S.testBit (2 * r + 1) = false) :
    (encodeStep n ((List.range n).map fun r => decodeEvent r (eventCode n S r))).testBit (2 * n) =
      S.testBit (2 * n) := by
  rw [encodeStep_readers_tick (decodeEvent_eventCode_reader h0)]
  simp only [eventCode_of_rst_low h0, isTick_decodeEvent]
  cases ht : S.testBit (2 * n) with
  | false => simp
  | true => exact List.any_eq_true.mpr ⟨r, List.mem_range.mpr hr, by simp [hd0, hd1]⟩

end

/-- Settles O5: what a word with `rst` low decodes to is one event for each reader, and the step
word of those is known line by line. -/
theorem encodeOfDecodedStep : Obligations.EncodeOfDecodedStep := by
  unfold Obligations.EncodeOfDecodedStep
  intro n S
  refine ⟨decodeStep_eq_rejected_iff, fun es hes => ?_⟩
  obtain ⟨-, hd⟩ | ⟨-, h1, hd⟩ | ⟨-, h0, hd⟩ := decodeStep_cases n S
  · simp [hd] at hes
  · obtain rfl : [.reset] = es := by simpa [hd] using hes
    refine ⟨wellFormedStep_iff.mpr (.inl rfl), ?_, fun h0 => absurd h1 (by simp [h0])⟩
    rw [encodeStep_reset, Nat.testBit_two_pow_self, h1]
  · rw [hd, Decoded.events.injEq] at hes
    subst hes
    refine ⟨wellFormedStep_decoded h0, ?_, fun _ => ⟨fun k => encodeStep_decoded_pulse h0, ?_⟩⟩
    · rw [encodeStep_readers_above (decodeEvent_eventCode_reader h0) (by omega), h0]
    · rintro ⟨r, hr, hd0, hd1⟩
      exact encodeStep_decoded_tick h0 hr hd0 hd1

/-- In a list without a repeated key, looking a key up finds the pair that has it. -/
theorem lookup_eq_some_iff_mem {bits : List (Nat × Bool)} (h : (bits.map Prod.fst).Nodup)
    {q : Nat} {v : Bool} : bits.lookup q = some v ↔ (q, v) ∈ bits := by
  induction bits with
  | nil => simp
  | cons b bits ih =>
    obtain ⟨r, u⟩ := b
    obtain ⟨hr, hn⟩ := List.nodup_cons.mp h
    by_cases hq : q = r
    · subst hq
      have : (q, v) ∉ bits := fun hm => hr (List.mem_map.mpr ⟨_, hm, rfl⟩)
      simp [this, eq_comm]
    · rw [List.lookup_cons, beq_false_of_ne hq, ih hn]
      simp [hq]

/-- The bits of a word with one bit set. -/
theorem one_shiftLeft_testBit (m k : Nat) : (1 <<< m).testBit k = (k == m) := by
  rw [Nat.one_shiftLeft, Nat.testBit_two_pow, Bool.eq_iff_iff, decide_eq_true_iff, beq_iff_eq,
    eq_comm]

section
variable {n : Nat} {t : Bool} {bits : List (Nat × Bool)}

/-- The bits of the word of a STEP: `tick` and the listed lines (R51). -/
theorem stepWord_testBit (k : Nat) :
    ((Stmt.step t bits).word n).testBit k =
      (t && k == 2 * n || bits.any fun b => k == 2 * b.1 + b.2.toNat) := by
  induction bits with
  | nil =>
    cases t with
    | false => simp [Stmt.word]
    | true => exact (one_shiftLeft_testBit _ _).trans (by simp)
  | cons b bits ih =>
    have hw : (Stmt.step t (b :: bits)).word n =
        pulseBit b.1 b.2 ||| (Stmt.step t bits).word n := rfl
    rw [hw, Nat.testBit_or, ih, pulseBit, one_shiftLeft_testBit, List.any_cons, Bool.or_left_comm]

/-- The event a STEP gives reader `q` (R51): its listed bit, or TICK or NOP without one. -/
def stepEvent (t : Bool) (bits : List (Nat × Bool)) (q : Nat) : Instr :=
  match bits.lookup q with
  | some v => .ofBit q v
  | none => if t then .tick q else .nop q

/-- A code with `rst` low and the lines of the listed bit of a reader decodes to its event. -/
theorem decodeEvent_lookup (q : Nat) :
    decodeEvent q (eventBits false t (bits.lookup q == some true) (bits.lookup q == some false)) =
      stepEvent t bits q := by
  rw [decodeEvent_eventBits, stepEvent]
  cases bits.lookup q with
  | none => rfl
  | some v => cases v <;> rfl

variable (h : (Stmt.step t bits).legal n = true)
include h

/-- A legal STEP names each reader once, and readers of the block (R31, R96). -/
theorem step_legal : (bits.map Prod.fst).Nodup ∧ ∀ b ∈ bits, b.1 < n := by
  simpa [Stmt.legal] using h

/-- A legal STEP has no bit above `tick`. -/
theorem stepWord_above {k : Nat} (hk : 2 * n < k) :
    ((Stmt.step t bits).word n).testBit k = false := by
  rw [stepWord_testBit, beq_false_of_ne (by omega), Bool.and_false, Bool.false_or,
    List.any_eq_false]
  intro b hb
  have := (step_legal h).2 b hb
  have := Bool.toNat_le b.2
  simp only [beq_iff_eq]
  omega

/-- A legal STEP raises `tick` exactly when it says so. -/
theorem stepWord_tick : ((Stmt.step t bits).word n).testBit (2 * n) = t := by
  have hb : (bits.any fun b => 2 * n == 2 * b.1 + b.2.toNat) = false := by
    rw [List.any_eq_false]
    intro b hb
    have := (step_legal h).2 b hb
    have := Bool.toNat_le b.2
    simp only [beq_iff_eq]
    omega
  rw [stepWord_testBit, hb, beq_self_eq_true, Bool.and_true, Bool.or_false]

/-- A legal STEP pulses the line of a reader that the reader's listed bit says. -/
theorem stepWord_pulse {q : Nat} (hq : q < n) (v : Bool) :
    ((Stmt.step t bits).word n).testBit (2 * q + v.toNat) = (bits.lookup q == some v) := by
  have hv := Bool.toNat_le v
  rw [stepWord_testBit, beq_false_of_ne (by omega), Bool.and_false, Bool.false_or,
    Bool.eq_iff_iff, beq_iff_eq, lookup_eq_some_iff_mem (step_legal h).1, List.any_eq_true]
  constructor
  · rintro ⟨⟨r, u⟩, hb, he⟩
    have he : 2 * q + v.toNat = 2 * r + u.toNat := by simpa using he
    have hu := Bool.toNat_le u
    obtain rfl : q = r := by omega
    obtain rfl : v = u := by cases v <;> cases u <;> simp_all
    exact hb
  · exact fun hb => ⟨_, hb, beq_self_eq_true _⟩

/-- A legal STEP decodes to the events it lists. -/
theorem decodeStep_stepWord :
    decodeStep n ((Stmt.step t bits).word n) = .events ((List.range n).map (stepEvent t bits)) := by
  rw [decodeStep_of_lines fun k => stepWord_above h, stepWord_tick h]
  congr 1
  refine List.map_congr_left fun q hq => ?_
  have h1 := stepWord_pulse h (List.mem_range.mp hq) true
  have h0 := stepWord_pulse h (List.mem_range.mp hq) false
  rw [Bool.toNat_true] at h1
  rw [Bool.toNat_false, Nat.add_zero] at h0
  rw [h1, h0, decodeEvent_lookup]

end

/-- A bit statement is the STEP of its one pair. -/
theorem decodeStep_bitWord {n r : Nat} (hr : r < n) (v : Bool) :
    decodeStep n (pulseBit r v) =
      .events ((List.range n).map fun q => if q = r then .ofBit r v else .nop q) := by
  have h : (Stmt.step false [(r, v)]).legal n = true := by simpa [Stmt.legal] using hr
  have hw : (Stmt.step false [(r, v)]).word n = pulseBit r v := Nat.or_zero _
  rw [← hw, decodeStep_stepWord h]
  congr 1
  refine List.map_congr_left fun q _ => ?_
  by_cases hq : q = r
  · simp [stepEvent, hq]
  · simp [stepEvent, List.lookup_cons, beq_false_of_ne hq, hq]

/-- Settles O6: every statement but RST is a STEP, whose word is read line by line. -/
theorem traceStatementEvents : Obligations.TraceStatementEvents := by
  unfold Obligations.TraceStatementEvents
  intro n a h
  cases a with
  | rst =>
    have hw : (Stmt.rst).word n = encodeStep n [.reset] := by
      rw [encodeStep_reset, Stmt.word, Nat.one_shiftLeft]
    rw [hw]
    exact decodeOfEncodedStep n _ (wellFormedStep_iff.mpr (.inl rfl))
  | nop => exact decodeStep_stepWord (t := false) (bits := []) rfl
  | tick => exact decodeStep_stepWord (t := true) (bits := []) rfl
  | b0 r => exact decodeStep_bitWord (by simpa [Stmt.legal] using h) false
  | b1 r => exact decodeStep_bitWord (by simpa [Stmt.legal] using h) true
  | step t bits =>
    rw [decodeStep_stepWord h]
    congr 1
    refine List.map_congr_left fun q _ => ?_
    unfold stepEvent
    cases bits.lookup q with
    | none => rfl
    | some v => cases v <;> rfl

end Sys2Proof.Machine
end

section
/-! The layout of a frame word (30_encoding.md R44, R45): its fields are windows of its bits in
order of arrival, and W26 is the frame of its fields that holds both parities (R75). -/

namespace Sys2Proof.Machine

variable (w : FrameWord)

theorem frameBitsOf_length : (frameBitsOf w).length = 26 := by
  simp [frameBitsOf, frameBits]

/-- `k` bits of a frame from position `d` on are word bits `25-d` down to `26-d-k` (R44). -/
theorem frameBitsOf_window {d k : Nat} (h : d + k ≤ 26) :
    ((frameBitsOf w).drop d).take k =
      ((List.range k).map fun j => w.getLsbD (26 - d - k + j)).reverse := by
  apply List.ext_getElem
  · simp [frameBitsOf_length]; omega
  · intro j hj _
    have hj : j < k := by simp [frameBitsOf_length] at hj; omega
    simp only [List.getElem_take, List.getElem_drop, List.getElem_reverse, List.getElem_map,
      List.getElem_range, List.length_map, List.length_range, frameBitsOf, frameBit]
    congr 1
    omega

/-- The value of a field is read from its bits, the earliest most significant (R32). -/
theorem bitsValue_testBits (x : Nat) (k : Nat) :
    bitsValue ((List.range k).map x.testBit).reverse = x % 2 ^ k := by
  induction k generalizing x with
  | zero => simp [bitsValue, Nat.mod_one]
  | succ k ih =>
    have hx : (List.range k).map (x.testBit ∘ Nat.succ) = (List.range k).map (x / 2).testBit :=
      List.map_congr_left fun j _ => Nat.testBit_succ x j
    rw [List.range_succ_eq_map, List.map_cons, List.map_map, hx, List.reverse_cons,
      bitsValue_append, ih, Nat.toNat_testBit, Nat.pow_succ', Nat.mod_mul]
    simp
    omega

/-- A field of a frame word is its window of the bits in order of arrival. -/
theorem extractLsb'_eq_bitsValue {d k : Nat} (h : d + k ≤ 26) :
    (w.extractLsb' (26 - d - k) k).toNat = bitsValue (((frameBitsOf w).drop d).take k) := by
  rw [frameBitsOf_window w h, BitVec.extractLsb'_toNat, ← bitsValue_testBits]
  congr 3
  funext j
  rw [Nat.testBit_shiftRight, BitVec.getLsbD]

theorem frameFacility_toNat :
    (frameFacility w).toNat = bitsValue (((frameBitsOf w).drop 1).take 8) :=
  extractLsb'_eq_bitsValue w (d := 1) (k := 8) (by omega)

theorem frameCard_toNat :
    (frameCard w).toNat = bitsValue (((frameBitsOf w).drop 9).take 16) :=
  extractLsb'_eq_bitsValue w (d := 9) (k := 16) (by omega)

/-- Settles O7: each field is its window, and the parity bits are the ends of the list. -/
theorem frameWordFieldPositions : Obligations.FrameWordFieldPositions := by
  unfold Obligations.FrameWordFieldPositions
  intro w
  exact ⟨frameBitsOf_length w, frameFacility_toNat w, frameCard_toNat w, rfl, rfl⟩

/-- The two fields stand side by side in a frame word (R44). -/
theorem frameFields_eq : frameFacility w ++ frameCard w = w.extractLsb' 1 24 :=
  BitVec.extractLsb'_append_extractLsb'_eq_extractLsb' rfl

/-- A frame word is its leading bit, its two fields and its trailing bit (R44). -/
theorem frameWord_eq :
    BitVec.ofBool (w.getLsbD 25) ++ (frameFacility w ++ frameCard w) ++
      BitVec.ofBool (w.getLsbD 0) = w := by
  have h25 : BitVec.ofBool (w.getLsbD 25) = w.extractLsb' 25 1 := by
    ext i hi
    obtain rfl : i = 0 := by omega
    simp
  have h0 : BitVec.ofBool (w.getLsbD 0) = w.extractLsb' 0 1 := by
    ext i hi
    obtain rfl : i = 0 := by omega
    simp
  rw [frameFields_eq, h25, h0,
    BitVec.extractLsb'_append_extractLsb'_eq_extractLsb' (start₂ := 25) (len₁ := 24) rfl,
    BitVec.extractLsb'_append_extractLsb'_eq_extractLsb' (start₂ := 1) (len₁ := 1) rfl]
  exact BitVec.extractLsb'_eq_self

section
variable (fac : FacilityCode) (card : CardCode)

theorem frameFacility_w26 : frameFacility (w26 fac card) = fac := by
  rw [frameFacility, w26, BitVec.extractLsb'_append_eq_of_le (by omega),
    BitVec.extractLsb'_append_eq_of_add_le (by omega)]
  exact BitVec.extractLsb'_append_eq_left

theorem frameCard_w26 : frameCard (w26 fac card) = card := by
  rw [frameCard, w26, BitVec.extractLsb'_append_eq_of_le (by omega),
    BitVec.extractLsb'_append_eq_of_add_le (by omega)]
  exact BitVec.extractLsb'_append_eq_right

theorem w26_leading : (w26 fac card).getLsbD 25 = xorBits (fac ++ card) 12 12 := by
  simp only [w26, BitVec.getLsbD_append, BitVec.getLsbD_ofBool]
  rfl

theorem w26_trailing : (w26 fac card).getLsbD 0 = !xorBits (fac ++ card) 0 12 := by
  simp only [w26, BitVec.getLsbD_append, BitVec.getLsbD_ofBool]
  rfl

end

/-- Settles O9: W26 holds its fields side by side. -/
theorem wellFormedFrameCarriesFields : Obligations.WellFormedFrameCarriesFields := by
  unfold Obligations.WellFormedFrameCarriesFields
  intro fac card
  exact ⟨frameFacility_w26 fac card, frameCard_w26 fac card⟩

/-- A frame word is W26 of its fields exactly when its two parity bits are (R45). -/
theorem eq_w26_iff :
    w = w26 (frameFacility w) (frameCard w) ↔
      w.getLsbD 25 = xorBits (frameFacility w ++ frameCard w) 12 12 ∧
        w.getLsbD 0 = !xorBits (frameFacility w ++ frameCard w) 0 12 := by
  constructor
  · intro h
    have h25 := w26_leading (frameFacility w) (frameCard w)
    have h0 := w26_trailing (frameFacility w) (frameCard w)
    rw [← h] at h25 h0
    exact ⟨h25, h0⟩
  · rintro ⟨h25, h0⟩
    conv_lhs => rw [← frameWord_eq w, h25, h0]
    rfl

/-- The exclusive or of a list of bits is 1 when an odd number of them are. -/
theorem foldr_xor_eq_odd (bs : List Bool) :
    bs.foldr (fun b acc => b ^^ acc) false = (bs.count true % 2 == 1) := by
  induction bs with
  | nil => rfl
  | cons b bs ih =>
    rw [List.foldr_cons, ih]
    obtain h | h := Nat.mod_two_eq_zero_or_one (bs.count true) <;>
      cases b <;> simp [h, Nat.add_mod]

/-- The exclusive or of a stretch of the fields, as a window of the frame's bits. -/
theorem xorBits_fields {d k : Nat} (h1 : 1 ≤ d) (h : d + k ≤ 25) :
    xorBits (frameFacility w ++ frameCard w) (25 - d - k) k =
      ((((frameBitsOf w).drop d).take k).count true % 2 == 1) := by
  have hbit : ∀ j ∈ List.range k, w.getLsbD (26 - d - k + j) =
      (frameFacility w ++ frameCard w).getLsbD (25 - d - k + j) := by
    intro j hj
    have hj := List.mem_range.mp hj
    rw [frameFields_eq, BitVec.getLsbD_extractLsb', decide_eq_true (by omega), Bool.true_and]
    congr 1
    omega
  rw [frameBitsOf_window w (by omega), List.count_reverse, List.map_congr_left hbit,
    ← foldr_xor_eq_odd, List.foldr_map, xorBits]

/-- The leading parity bit of a frame makes the ones of its domain even (R75). -/
theorem evenParityHolds_iff :
    evenParityHolds w = true ↔
      w.getLsbD 25 = xorBits (frameFacility w ++ frameCard w) 12 12 := by
  have hw : (frameBitsOf w).take 13 = w.getLsbD 25 :: ((frameBitsOf w).drop 1).take 12 := rfl
  rw [evenParityHolds, hw, xorBits_fields w (d := 1) (k := 12) (by omega) (by omega),
    List.count_cons]
  cases w.getLsbD 25 with
  | false => simp
  | true => simp; omega

/-- The trailing parity bit of a frame makes the ones of its domain odd (R75). -/
theorem oddParityHolds_iff :
    oddParityHolds w = true ↔
      w.getLsbD 0 = !xorBits (frameFacility w ++ frameCard w) 0 12 := by
  have hw : (frameBitsOf w).drop 13 = ((frameBitsOf w).drop 13).take 12 ++ [w.getLsbD 0] := rfl
  rw [oddParityHolds, hw, xorBits_fields w (d := 13) (k := 12) (by omega) (by omega),
    List.count_append]
  cases w.getLsbD 0 with
  | false => simp
  | true => simp; omega

/-- Settles O8: each parity holds exactly when its parity bit is that of W26. -/
theorem wellFormedFrameIsUnique : Obligations.WellFormedFrameIsUnique := by
  unfold Obligations.WellFormedFrameIsUnique
  intro w
  rw [evenParityHolds_iff, oddParityHolds_iff, eq_w26_iff]

end Sys2Proof.Machine
end

section
/-! What a reader shows on its ports (30_encoding.md R46 to R48): the output bundle, that every
notification is consistent, and that a well-formed frame is forwarded (R45, R102). -/

namespace Sys2Proof.Machine

/-- Settles O41: `bundleOf` under the level of `cfg_trace` in the same state. -/
theorem outputBundleFields : Obligations.OutputBundleFields := by
  unfold Obligations.OutputBundleFields
  intro s r c hc
  have hb : s.bundle? r = some (bundleOf c.out s.input.cfgTrace) := by
    rw [State.bundle?, State.reader?, hc, Option.map_some]
  rw [hb]
  rfl

/-- A notification that says what R47 and R48 say of it, and its reader Idle with no timer pending
(R82). -/
structure Slice.Notified (c : Slice) : Prop where
  /-- R47. -/
  ok_iff : c.out.finOk = true ↔ c.out.finCause = .none
  /-- R48. -/
  fail_iff : (c.out.finEvenFail = true ∨ c.out.finOddFail = true) ↔ c.out.finCause = .parity
  /-- R19: Idle. -/
  idle : c.rs.bitCount = 0
  /-- R82. -/
  disarmed : c.tm = ⟨false, 0⟩

section
variable {T : Nat} {v : Bool} {c : Slice}

/-- A TICK notifies only where a frame times out (R85). -/
theorem tickReader_notified (h : (tickReader c).out.finStrobe = true) :
    (tickReader c).Notified := by
  cases ha : c.tm.armed with
  | false => rw [tickReader_disarmed ha] at h; cases h
  | true =>
    by_cases h2 : 2 ≤ c.tm.count
    · rw [tickReader_counts ha h2] at h; cases h
    have h1 : c.tm.count ≤ 1 := by omega
    by_cases hb : c.rs.bitCount = 0
    · rw [tickReader_expires_idle ha h1 hb] at h; cases h
    · rw [tickReader_times_out ha h1 hb]
      constructor <;> simp

/-- A completion reports its verdict in each of its fields (R65). -/
theorem completion_notified (hp : c.rs.bitCount.toNat = 25) : (bitReader T v c).Notified := by
  rw [bitReader_trailing hp, acceptTrailing_eq]
  have hv := validate_ok (completeFrame v (timerRearm T (clearStrobe c)).rs)
  generalize validate _ = verdict at hv ⊢
  obtain ⟨ok, evenFail, oddFail⟩ := verdict
  obtain rfl : ok = (!evenFail && !oddFail) := hv
  constructor <;> cases evenFail <;> cases oddFail <;> simp

/-- A bit notifies from position 25 on (R65, R66). -/
theorem bitReader_notified (h : (bitReader T v c).out.finStrobe = true) :
    (bitReader T v c).Notified := by
  obtain hp | hp | hp : c.rs.bitCount.toNat ≤ 24 ∨ c.rs.bitCount.toNat = 25 ∨
    26 ≤ c.rs.bitCount.toNat := by omega
  · rw [(bitReader_open v hp).2] at h; cases h
  · exact completion_notified hp
  · rw [bitReader_overrun hp]
    constructor <;> simp [overrun]

end

/-- Settles O38: a notification comes from the last tick of a frame, its completion or an
overrun. -/
theorem notificationIsConsistent : Obligations.NotificationIsConsistent := by
  unfold Obligations.NotificationIsConsistent
  intro s t i r c' h hi hc' hs
  obtain ⟨rfl, -⟩ | ⟨q, c, hq, hc, rfl⟩ := exec_next_cases h
  · cases hi
  obtain rfl : q = r := Option.some.inj (hq.symm.trans hi)
  obtain rfl : reactTo s.timeoutTicks i c = c' := by
    simpa [(List.getElem?_eq_some_iff.mp hc).1] using hc'
  suffices hn : (reactTo s.timeoutTicks i c).Notified from
    ⟨hn.ok_iff, hn.fail_iff, hn.idle, hn.disarmed⟩
  obtain rfl | rfl | rfl | rfl | rfl := event_cases_of_reader hq
  · cases hs
  · exact tickReader_notified hs
  · exact bitReader_notified hs
  · exact bitReader_notified hs
  · exact absurd h (exec_collide_ne_next q s _)

section
variable {T : Nat} {v : Bool} {c : Slice} {rs : ReaderState} {bs : List Bool}

/-- The low bit of a sum says whether it is odd. -/
theorem getLsbD_zero_eq_odd (x : ParitySum) : x.getLsbD 0 = (x.toNat % 2 == 1) := by
  rw [BitVec.getLsbD, Nat.testBit_zero]
  rfl

/-- Of a whole frame the even check is the parity of positions 0-12 (R70, R75). -/
theorem evenOk_completeFrame (h : rs.Holds bs) (hl : bs.length = 25) :
    evenOk (completeFrame v rs) = (((bs ++ [v]).take 13).count true % 2 == 0) := by
  have hd : evenOk (completeFrame v rs) = (rs.parity0Sum.getLsbD 0 == rs.leadingParityBit) := rfl
  obtain ⟨b, bs, rfl⟩ := List.exists_cons_of_length_eq_add_one hl
  obtain rfl : rs.leadingParityBit = b := by simpa using h.leading
  have hs : rs.parity0Sum.toNat = (bs.take 12).count true := h.sum0
  have ht : (rs.leadingParityBit :: bs ++ [v]).take 13 = rs.leadingParityBit :: bs.take 12 := by
    rw [List.take_append_of_le_length (by omega), List.take_succ_cons]
  rw [hd, getLsbD_zero_eq_odd, hs, ht, List.count_cons, Bool.eq_iff_iff]
  cases rs.leadingParityBit <;> simp
  omega

/-- Of a whole frame the odd check is the parity of positions 13-25 (R71, R75). -/
theorem oddOk_completeFrame (h : rs.Holds bs) (hl : bs.length = 25) :
    oddOk (completeFrame v rs) = (((bs ++ [v]).drop 13).count true % 2 == 1) := by
  have hd : oddOk (completeFrame v rs) = ((!rs.parity1Sum.getLsbD 0) == v) := rfl
  rw [hd, getLsbD_zero_eq_odd, h.sum1, List.drop_append_of_le_length (by omega), List.count_append,
    Bool.eq_iff_iff]
  cases v <;> simp
  omega

/-- The notification of the bit that makes a frame whole: the verdict of R75 and the fields of the
frame (R65, R68). -/
theorem bitReader_completes (h : c.rs.Holds bs) (hl : bs.length = 25) :
    (bitReader T v c).out.finStrobe = true ∧
    (bitReader T v c).out.finOk =
      (((bs ++ [v]).take 13).count true % 2 == 0 && ((bs ++ [v]).drop 13).count true % 2 == 1) ∧
    (bitReader T v c).out.finFacility.toNat = bitsValue (((bs ++ [v]).drop 1).take 8) ∧
    (bitReader T v c).out.finCard.toNat = bitsValue (((bs ++ [v]).drop 9).take 16) ∧
    (bitReader T v c).out.finFull =
      (bitReader T v c).out.finFacility ++ (bitReader T v c).out.finCard := by
  rw [bitReader_trailing (h.bitCount.trans hl), acceptTrailing_eq]
  refine ⟨rfl, ?_, ?_, ?_, rfl⟩
  · rw [← evenOk_completeFrame h hl, ← oddOk_completeFrame h hl]
    rfl
  · rw [window_append_past v (by omega)]
    exact h.facility
  · rw [window_append_past v (by omega), List.take_of_length_le (by simp [hl])]
    exact h.card

end

/-- A reader that shows a valid notification forwards its codes (R102). -/
theorem result?_setReader {s : State} {r : Nat} {c : Slice} (hr : r < s.slices.length)
    (hs : c.out.finStrobe = true) (ho : c.out.finOk = true) :
    (s.setReader r c).result? r = some ⟨r, c.out.finFacility, c.out.finCard, c.out.finFull⟩ := by
  simp [State.result?, State.reader?, resStrobe, hr, hs, ho]

/-- A frame and its last bit act on the slice of its reader alone. -/
theorem runEvents_frame {s : State} {r : Nat} {c : Slice} (hc : s.slices[r]? = some c)
    (bits : List (Bool × List Bool)) (last : Bool) :
    runEvents (spacedBits r bits ++ [.ofBit r last]) s =
      .next (s.setReader r
        (bitReader s.timeoutTicks last (reactAll s.timeoutTicks (spacedBits r bits) c))) := by
  have hes : ∀ i ∈ spacedBits r bits ++ [.ofBit r last], i.reader? = some r ∧ i ≠ .collide r := by
    intro i hi
    obtain hi | hi := List.mem_append.mp hi
    · exact mem_spacedBits hi
    · obtain rfl := List.mem_singleton.mp hi
      cases last <;> simp [Instr.ofBit, Instr.reader?]
  rw [runEvents_one_reader _ hes s c hc, ← reactAll, reactAll_append, reactAll_cons, reactAll_nil,
    reactTo_ofBit]

/-- Settles O54: the reader holds the frame's bits when the last one comes, so it reports the
frame's fields, and a W26 frame holds both parities. -/
theorem wellFormedFrameIsForwarded : Obligations.WellFormedFrameIsForwarded := by
  unfold Obligations.WellFormedFrameIsForwarded
  intro s r c bits last fac card hc h0 hb hg
  have hl : bits.length = 25 := by simpa [frameBitsOf_length] using congrArg List.length hb
  have hin := reactAll_spacedBits_inFrame r h0 (by omega) hl.le hg
  obtain ⟨hs, ho, hf, hk, hfull⟩ := bitReader_completes (T := s.timeoutTicks) (v := last) hin.holds
    (by simpa using hl)
  obtain ⟨heven, hodd⟩ := (wellFormedFrameIsUnique (w26 fac card)).mpr
    (by rw [frameFacility_w26, frameCard_w26])
  rw [hb] at ho hf hk
  rw [← frameFacility_toNat, frameFacility_w26] at hf
  rw [← frameCard_toNat, frameCard_w26] at hk
  have hok := ho.trans (Bool.and_eq_true_iff.mpr ⟨heven, hodd⟩)
  refine ⟨_, runEvents_frame hc bits last, ?_⟩
  rw [result?_setReader (List.getElem?_eq_some_iff.mp hc).1 hs hok, hfull,
    BitVec.eq_of_toNat_eq hf, BitVec.eq_of_toNat_eq hk]

end Sys2Proof.Machine
end

section
/-! The Frame Accumulator (40_frame_accumulator.md R60 to R68): what exec of a bit answers at each
position, and the report of a frame whose 26 bits have come. -/

namespace Sys2Proof.Machine

/-- A bit for a reader the block has acts on that reader's slice. -/
theorem exec_ofBit_present {s : State} {r : Nat} {c : Slice} (v : Bool)
    (hc : s.slices[r]? = some c) :
    exec (.ofBit r v) s = .next (s.setReader r (bitReader s.timeoutTicks v c)) := by
  rw [exec_ofBit, onReader_present _ hc]

/-- Settles O28: position 0 is frame start. -/
theorem bitAtPositionZeroStartsFrame : Obligations.BitAtPositionZeroStartsFrame := by
  unfold Obligations.BitAtPositionZeroStartsFrame
  intro s r v c hc h0
  have hp : c.rs.bitCount.toNat = 0 := by simp [h0]
  rw [exec_ofBit_present v hc, bitReader_start hp]
  rfl

/-- Settles O29: positions 1 to 8 shift the facility field and add to the even sum. -/
theorem bitAtFacilityPosition : Obligations.BitAtFacilityPosition := by
  unfold Obligations.BitAtFacilityPosition
  intro s r v c hc hlo hhi
  rw [exec_ofBit_present v hc, bitReader_facility hlo hhi, ← shiftIn_eq_ite, ← addBit_eq_ite,
    ← bumpCount_eq_add_one _ (by omega)]
  rfl

/-- Settles O30: positions 9 to 12 shift the card field and add to the even sum. -/
theorem bitAtEvenCardPosition : Obligations.BitAtEvenCardPosition := by
  unfold Obligations.BitAtEvenCardPosition
  intro s r v c hc hlo hhi
  rw [exec_ofBit_present v hc, bitReader_cardEven hlo hhi, ← shiftIn_eq_ite, ← addBit_eq_ite,
    ← bumpCount_eq_add_one _ (by omega)]
  rfl

/-- Settles O31: positions 13 to 24 shift the card field and add to the odd sum. -/
theorem bitAtOddCardPosition : Obligations.BitAtOddCardPosition := by
  unfold Obligations.BitAtOddCardPosition
  intro s r v c hc hlo hhi
  rw [exec_ofBit_present v hc, bitReader_cardOdd hlo hhi, ← shiftIn_eq_ite, ← addBit_eq_ite,
    ← bumpCount_eq_add_one _ (by omega)]
  rfl

/-- Settles O32: the completion as one record, `fin_ok` being the verdict. -/
theorem bitAtTrailingPositionCompletesFrame :
    Obligations.BitAtTrailingPositionCompletesFrame := by
  unfold Obligations.BitAtTrailingPositionCompletesFrame
  intro s r v c hc hp evenOk oddOk ok
  rw [exec_ofBit_present v hc, bitReader_trailing hp, acceptTrailing_eq]
  rfl

/-- Settles O33: above position 25 the overrun is reported and the bit stored nowhere. -/
theorem bitPastFrameEndOverruns : Obligations.BitPastFrameEndOverruns := by
  unfold Obligations.BitPastFrameEndOverruns
  intro s r v c hc hp
  rw [exec_ofBit_present v hc, bitReader_overrun hp]
  rfl

section
variable (T : Nat) (v : Bool) {c : Slice} {bs : List Bool}

/-- Completion leaves the completed frame in the Reader State, Idle (R65). -/
theorem completion_rs (hp : c.rs.bitCount.toNat = 25) :
    (bitReader T v c).rs = { completeFrame v c.rs with bitCount := 0 } := by
  rw [bitReader_trailing hp, acceptTrailing_eq]
  rfl

/-- At completion the fail flags decide `fin_ok` and the cause (R65, R72). -/
theorem completion_of_flags (hp : c.rs.bitCount.toNat = 25) :
    (bitReader T v c).out.finOk =
      (!(bitReader T v c).out.finEvenFail && !(bitReader T v c).out.finOddFail) ∧
    (bitReader T v c).out.finCause =
      if (bitReader T v c).out.finEvenFail || (bitReader T v c).out.finOddFail then .parity
      else .none := by
  rw [bitReader_trailing hp, acceptTrailing_eq]
  have hv := validate_ok (completeFrame v (timerRearm T (clearStrobe c)).rs)
  refine ⟨hv, ?_⟩
  simp only [timerDisarm_out, hv]
  cases (validate _).evenFail <;> cases (validate _).oddFail <;> rfl

/-- Each fail flag is set exactly when the parity of its half of the frame fails (R68, R75). -/
theorem completion_flags (h : c.rs.Holds bs) (hl : bs.length = 25) :
    (bitReader T v c).out.finEvenFail = (((bs ++ [v]).take 13).count true % 2 == 1) ∧
    (bitReader T v c).out.finOddFail = (((bs ++ [v]).drop 13).count true % 2 == 0) := by
  rw [bitReader_trailing (h.bitCount.trans hl), acceptTrailing_eq]
  constructor
  · have he : (validate (completeFrame v c.rs)).evenFail = !evenOk (completeFrame v c.rs) := rfl
    refine he.trans ?_
    rw [evenOk_completeFrame h hl, Bool.eq_iff_iff]
    simp
  · have ho : (validate (completeFrame v c.rs)).oddFail = !oddOk (completeFrame v c.rs) := rfl
    refine ho.trans ?_
    rw [oddOk_completeFrame h hl, Bool.eq_iff_iff]
    simp

/-- The leading and trailing bits and the two sums, as the frame's end leaves them (R68). -/
theorem completion_parity_state (h : c.rs.Holds bs) (hl : bs.length = 25) :
    some (bitReader T v c).rs.leadingParityBit = (bs ++ [v]).head? ∧
    (bitReader T v c).rs.trailingParityBit = v ∧
    (bitReader T v c).rs.parity0Sum.toNat = (((bs ++ [v]).drop 1).take 12).count true ∧
    (bitReader T v c).rs.parity1Sum.toNat = (((bs ++ [v]).drop 13).take 12).count true := by
  have hp : c.rs.bitCount.toNat = 25 := h.bitCount.trans hl
  rw [completion_rs T v hp]
  refine ⟨h.head_append (by omega), rfl, ?_, ?_⟩
  · rw [window_append_past v (by omega)]
    exact h.sum0
  · rw [window_append_past v (by omega), List.take_of_length_le (by simp [hl])]
    exact h.sum1

/-- The full code is the facility code above the card code's sixteen bits (R68). -/
theorem fullCode_toNat (fac : FacilityCode) (card : CardCode) :
    (fac ++ card).toNat = fac.toNat * 2 ^ 16 + card.toNat := by
  rw [BitVec.toNat_append, ← Nat.shiftLeft_add_eq_or_of_lt card.isLt, Nat.shiftLeft_eq]

end

/-- Settles O53: the reader holds the first 25 bits in their fields when the last one comes, and its
completion reports them. -/
theorem completedFrameReport : Obligations.CompletedFrameReport := by
  unfold Obligations.CompletedFrameReport
  intro s r c bits last hc h0 hl hg bs evenFail oddFail
  have hb : (bits.map Prod.fst).length = 25 := by simpa using hl
  have hh := (reactAll_spacedBits_inFrame r h0 (by omega) hl.le hg).holds
  have hp := hh.bitCount.trans hb
  have hn := completion_notified (T := s.timeoutTicks) (v := last) hp
  obtain ⟨hlead, htrail, hsum0, hsum1⟩ := completion_parity_state s.timeoutTicks last hh hb
  obtain ⟨hs, -, hfac, hcard, hfull⟩ :=
    bitReader_completes (T := s.timeoutTicks) (v := last) hh hb
  obtain ⟨heven, hodd⟩ := completion_flags s.timeoutTicks last hh hb
  obtain ⟨hok, hcause⟩ := completion_of_flags s.timeoutTicks last hp
  rw [heven, hodd] at hok hcause
  exact ⟨_, _, runEvents_frame hc bits last, rfl, hn.idle, hn.disarmed, hlead, htrail, hsum0,
    hsum1, hs, hfac, hcard, hfull ▸ fullCode_toNat _ _, heven, hodd, hok, hcause⟩

end Sys2Proof.Machine
end

section
/-! The Parity Validator (41_parity_validator.md R70 to R72, R76): the comparisons of a sum's low bit
with its parity bit, as exclusive ors. -/

namespace Sys2Proof.Machine

/-- The even check as an exclusive or: it passes in the rows of R76 where the two bits agree. -/
theorem evenOk_eq_not_xor (rs : ReaderState) :
    evenOk rs = !(rs.parity0Sum.getLsbD 0 ^^ rs.leadingParityBit) :=
  (Bool.not_not _).symm

/-- The odd check as an exclusive or: it passes in the rows of R76 where the two bits differ. -/
theorem oddOk_eq_xor (rs : ReaderState) :
    oddOk rs = (rs.parity1Sum.getLsbD 0 ^^ rs.trailingParityBit) := by
  rw [oddOk]
  cases rs.parity1Sum.getLsbD 0 <;> cases rs.trailingParityBit <;> rfl

/-- Settles O37: the verdict is built from the two checks, each an exclusive or. -/
theorem validatorTruthTable : Obligations.ValidatorTruthTable := by
  unfold Obligations.ValidatorTruthTable
  intro rs even odd
  have heven : evenOk rs = even := evenOk_eq_not_xor rs
  have hodd : oddOk rs = odd := oddOk_eq_xor rs
  rw [validate, heven, hodd]

end Sys2Proof.Machine
end

section
/-! The Frame Timer (42_frame_timer.md R80 to R88): what exec of a TICK answers in each case, what a
stretch without bits makes of a timer, and the lifecycle of a reader. -/

namespace Sys2Proof.Machine

/-- A TICK for a reader the block has acts on that reader's slice. -/
theorem exec_tick_present {s : State} {r : Nat} {c : Slice} (hc : s.slices[r]? = some c) :
    exec (.tick r) s = .next (s.setReader r (tickReader c)) :=
  onReader_present _ hc

/-- Settles O24: the first case of R84. -/
theorem tickWithNoTimerPending : Obligations.TickWithNoTimerPending := by
  unfold Obligations.TickWithNoTimerPending
  intro s r c hc ha
  rw [exec_tick_present hc, tickReader_disarmed ha]
  rfl

/-- Settles O25: the third case of R84. -/
theorem tickCountsDown : Obligations.TickCountsDown := by
  unfold Obligations.TickCountsDown
  intro s r c hc ha h2
  rw [exec_tick_present hc, tickReader_counts ha h2]
  rfl

section
variable {T : Nat} {c : Slice}

/-- The expiry of an Open frame as one record: with the cause INCOMPLETE `fin_ok` is 0 whatever
`code_valid` is (R85, R100). -/
theorem tickReader_times_out_eq (ha : c.tm.armed = true) (h1 : c.tm.count ≤ 1)
    (hb : c.rs.bitCount ≠ 0) :
    tickReader c =
      { rs := { c.rs with bitCount := 0 }
        tm := ⟨false, 0⟩
        out := ⟨true, false, .incomplete, false, false, c.rs.facilityCode, c.rs.cardCode,
          c.rs.fullCode⟩ } := by
  rw [tickReader_times_out ha h1 hb]
  simp [toIdle, finalize, timerDisarm]

/-- The timer after a TICK, whatever else the slice holds (R84). -/
theorem tickReader_tm :
    (tickReader c).tm =
      if c.tm.armed = false then c.tm
      else if 2 ≤ c.tm.count then ⟨true, c.tm.count - 1⟩
      else ⟨false, 0⟩ := by
  cases ha : c.tm.armed with
  | false => rw [tickReader_disarmed ha]; rfl
  | true =>
    by_cases h2 : 2 ≤ c.tm.count
    · rw [tickReader_counts ha h2]; simp [h2]
    by_cases hb : c.rs.bitCount = 0
    · rw [tickReader_expires_idle ha (by omega) hb]; simp [h2]
    · rw [tickReader_times_out ha (by omega) hb]; simp [h2]

/-- A TICK notifies only where it uses up an armed timer (R84, R85). -/
theorem timer_of_tickReader_finStrobe (h : (tickReader c).out.finStrobe = true) :
    c.tm.armed = true ∧ c.tm.count ≤ 1 := by
  cases ha : c.tm.armed with
  | false => rw [tickReader_disarmed ha] at h; cases h
  | true =>
    by_cases h2 : 2 ≤ c.tm.count
    · rw [tickReader_counts ha h2] at h; cases h
    · exact ⟨rfl, by omega⟩

end

/-- Settles O26: the second case of R84 on an Open frame. -/
theorem tickTimesOutOpenFrame : Obligations.TickTimesOutOpenFrame := by
  unfold Obligations.TickTimesOutOpenFrame
  intro s r c hc ha h1 hb
  rw [exec_tick_present hc, tickReader_times_out_eq ha h1 hb]
  rfl

/-- Settles O27: the second case of R84 on an Idle reader. -/
theorem tickExpiryOnIdleIsSilent : Obligations.TickExpiryOnIdleIsSilent := by
  unfold Obligations.TickExpiryOnIdleIsSilent
  intro s r c hc ha h1 hb
  rw [exec_tick_present hc, tickReader_expires_idle ha h1 hb]
  rfl

/-! ### Stretches without bits -/

section
variable {T : Nat} {c : Slice} (r : Nat)

/-- One more TICK at the end of a stretch makes a longer stretch. -/
theorem gapEvents_append_tick (gap : List Bool) :
    gapEvents r gap ++ [.tick r] = gapEvents r (gap ++ [true]) := by
  simp [gapEvents]

theorem reactAll_append_tick (es : List Instr) :
    reactAll T (es ++ [.tick r]) c = tickReader (reactAll T es c) :=
  reactAll_append es _

/-- The events of a stretch without bits all reach its reader. -/
theorem mem_gapEvents {r : Nat} {gap : List Bool} {i : Instr} (h : i ∈ gapEvents r gap) :
    i.reader? = some r ∧ i ≠ .collide r := by
  obtain ⟨t, -, rfl⟩ := List.mem_map.mp h
  cases t <;> simp [Instr.reader?]

/-- A stretch without bits acts on the slice of its reader alone. -/
theorem runEvents_gapEvents {s : State} (hc : s.slices[r]? = some c) (gap : List Bool) :
    runEvents (gapEvents r gap) s =
      .next (s.setReader r (reactAll s.timeoutTicks (gapEvents r gap) c)) :=
  runEvents_one_reader _ (fun _ => mem_gapEvents) s c hc

/-- R84, R85: as many ticks as the counter holds, the last of them at the end, time an Open frame
out. -/
theorem reactAll_gapEvents_times_out {gap : List Bool} (ha : c.tm.armed = true)
    (hb : c.rs.bitCount ≠ 0) (h : ticksIn gap + 1 = c.tm.count) :
    reactAll T (gapEvents r gap ++ [.tick r]) c =
      { rs := { c.rs with bitCount := 0 }
        tm := ⟨false, 0⟩
        out := ⟨true, false, .incomplete, false, false, c.rs.facilityCode, c.rs.cardCode,
          c.rs.fullCode⟩ } := by
  rw [reactAll_append_tick, reactAll_gapEvents r ha (by omega)]
  exact tickReader_times_out_eq rfl (by simp only; omega) hb

/-- R84: after as many ticks as the counter holds, or more, no expiry is pending. -/
theorem reactAll_gapEvents_disarmed {gap : List Bool}
    (h : c.tm.armed = true → 1 ≤ c.tm.count ∧ c.tm.count ≤ ticksIn gap) :
    (reactAll T (gapEvents r gap) c).tm.armed = false := by
  induction gap generalizing c with
  | nil =>
    refine Bool.eq_false_iff.mpr fun ha => ?_
    have : 1 ≤ c.tm.count ∧ c.tm.count ≤ 0 := h ha
    omega
  | cons t gap ih =>
    cases t with
    | false => exact ih (c := nopReader c) (by simpa [ticksIn, nopReader] using h)
    | true =>
      refine ih (c := tickReader c) fun ha => ?_
      rw [tickReader_tm] at ha ⊢
      cases hc : c.tm.armed with
      | false => simp [hc] at ha
      | true =>
        have hle : c.tm.count ≤ ticksIn gap + 1 := by simpa [ticksIn] using (h hc).2
        by_cases h2 : 2 ≤ c.tm.count
        · simp [h2]; omega
        · simp [hc, h2] at ha

/-- R84: if the TICK after a stretch notifies, it is the one that uses up the counter: fewer ticks
leave the timer counting, and with more it has expired before. -/
theorem ticksIn_of_gapEvents_notify {gap : List Bool} (ha : c.tm.armed = true)
    (h1 : 1 ≤ c.tm.count)
    (hs : (reactAll T (gapEvents r gap ++ [.tick r]) c).out.finStrobe = true) :
    ticksIn gap + 1 = c.tm.count := by
  rw [reactAll_append_tick] at hs
  obtain ⟨harmed, hcount⟩ := timer_of_tickReader_finStrobe hs
  by_cases hlt : ticksIn gap < c.tm.count
  · rw [reactAll_gapEvents r ha hlt] at hcount
    simp only at hcount
    omega
  · rw [reactAll_gapEvents_disarmed r fun _ => ⟨h1, Nat.not_lt.mp hlt⟩] at harmed
    cases harmed

end

/-- Settles O49: what such a stretch makes of a slice, at its reader. -/
theorem frameSurvivesShortGap : Obligations.FrameSurvivesShortGap := by
  unfold Obligations.FrameSurvivesShortGap
  intro s r c gap hc ha h
  have hr := (List.getElem?_eq_some_iff.mp hc).1
  refine ⟨_, _, runEvents_gapEvents r hc gap, List.getElem?_set_self hr, ?_⟩
  rw [reactAll_gapEvents r ha h]
  exact ⟨rfl, rfl, rfl⟩

/-- Settles O50: the last tick finds `count = 1` and the frame still Open. -/
theorem frameTimesOutOnLastTick : Obligations.FrameTimesOutOnLastTick := by
  unfold Obligations.FrameTimesOutOnLastTick
  intro s r c gap hc ha hb h
  have hr := (List.getElem?_eq_some_iff.mp hc).1
  have hrun := runEvents_gapEvents r hc (gap ++ [true])
  rw [← gapEvents_append_tick, reactAll_gapEvents_times_out r ha hb h] at hrun
  exact ⟨_, _, hrun, List.getElem?_set_self hr, rfl, rfl, rfl⟩

/-! ### A bit and the timer -/

section
variable {T : Nat} {v : Bool} {c : Slice}

/-- The timer after a bit is decided by the bit's position alone (R94). -/
theorem bitReader_tm :
    (bitReader T v c).tm = if c.rs.bitCount.toNat < 25 then ⟨true, T⟩ else ⟨false, 0⟩ := by
  by_cases h : c.rs.bitCount.toNat < 25
  · rw [if_pos h, (bitReader_open v (by omega)).1]
  · rw [if_neg h, bitReader_from_25 (by omega), timerDisarm_tm]

/-- A timer that a bit leaves armed holds the full count (R81). -/
theorem bitReader_tm_of_armed (h : (bitReader T v c).tm.armed = true) :
    (bitReader T v c).tm = ⟨true, T⟩ := by
  rw [bitReader_tm] at h ⊢
  split at h
  next hp => rw [if_pos hp]
  next => cases h

end

/-- `tick` is no line but its own (R41). -/
theorem testBit_xor_tick {n k : Nat} (W : Nat) (h : k ≠ 2 * n) :
    (W ^^^ 2 ^ (2 * n)).testBit k = W.testBit k := by
  rw [Nat.testBit_xor, Nat.testBit_two_pow_of_ne h.symm, Bool.xor_false]

/-- In a step that answers a next state the event of a reader with a pulse is a bit, whatever `tick`
is (R42, R87). -/
theorem eventOf_of_pulse {s t : State} {r : Nat} (h : step s = .next t) (hr : r < s.slices.length)
    (h0 : s.input.word.testBit (2 * s.slices.length + 1) = false)
    (hp : s.input.word.testBit (2 * r) = true ∨ s.input.word.testBit (2 * r + 1) = true) :
    s.eventOf r = .ofBit r (s.input.word.testBit (2 * r + 1)) := by
  have hne := (step_next_event h h0 hr).2
  rw [State.eventOf, State.codeOf, eventCode, decodeEvent_eventBits, h0,
    if_neg Bool.false_ne_true] at hne ⊢
  have hor := Bool.or_eq_true_iff.mpr hp.symm
  split at hne
  next => exact absurd rfl hne
  next hboth => rw [if_neg hboth, if_pos hor]

/-- Settles O36: with and without the tick the reader's event is the same bit. -/
theorem tickIgnoredForPulsedReader : Obligations.TickIgnoredForPulsedReader := by
  unfold Obligations.TickIgnoredForPulsedReader
  intro s t t' r c hc h0 hp h h'
  have hr := (List.getElem?_eq_some_iff.mp hc).1
  have hrst := testBit_xor_tick s.input.word (Nat.succ_ne_self (2 * s.slices.length))
  have hd0 := testBit_xor_tick s.input.word (show 2 * r ≠ 2 * s.slices.length by omega)
  have hd1 := testBit_xor_tick s.input.word (show 2 * r + 1 ≠ 2 * s.slices.length by omega)
  have hp' := hp
  rw [← hd0, ← hd1] at hp'
  have ht := step_next_reader h hc
  have ht' := step_next_reader h' hc
  rw [eventOf_of_pulse h hr h0 hp, reactTo_ofBit] at ht
  rw [eventOf_of_pulse h' hr (hrst.trans h0) hp', reactTo_ofBit, hd1] at ht'
  exact ⟨ht.trans ht'.symm, _, ht, bitReader_tm⟩

/-! ### Frames that time out -/

section
variable {T : Nat} (r : Nat) (v : Bool) (gap : List Bool)

theorem spacedBits_singleton :
    spacedBits r [(v, gap)] = .ofBit r v :: gapEvents r gap := by
  simp [spacedBits]

/-- The last bit of a spaced-out frame and the stretch after it come after the other bits. -/
theorem reactAll_spacedBits_append (bits : List (Bool × List Bool)) (c : Slice) :
    reactAll T (spacedBits r (bits ++ [(v, gap)])) c =
      reactAll T (gapEvents r gap) (bitReader T v (reactAll T (spacedBits r bits) c)) := by
  have : spacedBits r (bits ++ [(v, gap)]) = spacedBits r bits ++ spacedBits r [(v, gap)] :=
    List.flatMap_append
  rw [this, spacedBits_singleton, reactAll_append, reactAll_cons, reactTo_ofBit]

end

/-- A spaced-out frame with one more TICK at its end acts on the slice of its reader alone. -/
theorem runEvents_frame_ticked {s : State} {r : Nat} {c : Slice} (hc : s.slices[r]? = some c)
    (bits : List (Bool × List Bool)) (v : Bool) (gap : List Bool) :
    runEvents (spacedBits r (bits ++ [(v, gap)]) ++ [.tick r]) s =
      .next (s.setReader r (reactAll s.timeoutTicks (gapEvents r gap ++ [.tick r])
        (bitReader s.timeoutTicks v (reactAll s.timeoutTicks (spacedBits r bits) c)))) := by
  have h : spacedBits r (bits ++ [(v, gap)]) ++ [.tick r] =
      spacedBits r (bits ++ [(v, gap ++ [true])]) := by
    simp [spacedBits, gapEvents]
  rw [h, runEvents_spacedBits hc, reactAll_spacedBits_append, gapEvents_append_tick]

/-- Settles O51: the last tick notifies only if it finds `count <= 1` in an armed timer, so it is
the `TIMEOUT_TICKS`-th after the bit. -/
theorem timeoutInRealTime : Obligations.TimeoutInRealTime := by
  unfold Obligations.TimeoutInRealTime
  intro s r v c P b f k gap hc hb hT hbf hf hk t c' hrun hc' hs
  have hr := (List.getElem?_eq_some_iff.mp hc).1
  have hframe : runEvents (.ofBit r v :: (gapEvents r gap ++ [.tick r])) s =
      .next (s.setReader r (reactAll s.timeoutTicks (gapEvents r gap ++ [.tick r])
        (bitReader s.timeoutTicks v c))) := by
    simpa [spacedBits] using runEvents_frame_ticked hc [] v gap
  cases hrun.symm.trans hframe
  obtain ⟨ht, -⟩ := bitReader_open (T := s.timeoutTicks) v hb
  obtain rfl := Option.some.inj ((List.getElem?_set_self hr).symm.trans hc')
  have hlast := ticksIn_of_gapEvents_notify r (by rw [ht]) (by rwa [ht]) hs
  rw [ht, hk] at hlast
  replace hlast : k + 1 = s.timeoutTicks := hlast
  refine ⟨hlast, ?_⟩
  rw [← hlast, Nat.add_sub_cancel, Nat.succ_mul]
  omega

/-! ### The end of a short frame -/

/-- A reader whose notification is not valid forwards no result (R102). -/
theorem result?_setReader_eq_none {s : State} {r : Nat} {c : Slice} (hr : r < s.slices.length)
    (ho : c.out.finOk = false) : (s.setReader r c).result? r = none := by
  simp [State.result?, State.reader?, resStrobe, hr, ho]

/-- From any Idle reader, up to 24 bits with short gaps and the next bit are a frame in progress,
whose timer has just been rearmed. -/
theorem bitReader_spacedBits_inFrame {T : Nat} {c : Slice} (r : Nat) (v : Bool)
    {bits : List (Bool × List Bool)} (hT : 1 ≤ T) (h0 : c.rs.bitCount = 0)
    (hl : bits.length ≤ 24) (hg : gapPremise T bits) :
    (bitReader T v (reactAll T (spacedBits r bits) c)).InFrame (bits.map Prod.fst ++ [v]) ∧
    (bitReader T v (reactAll T (spacedBits r bits) c)).tm = ⟨true, T⟩ := by
  have hg' : gapPremise T (bits ++ [(v, [])]) :=
    List.forall_mem_append.mpr ⟨hg, List.forall_mem_singleton.mpr hT⟩
  have hin := reactAll_spacedBits_inFrame r h0 (by simp) (by simp; omega) hg'
  rw [reactAll_spacedBits_append, List.map_append] at hin
  exact ⟨hin, bitReader_tm_of_armed hin.armed⟩

/-- Settles O55: the reader holds the frame's bits and a full timer after the last bit, and the
ticks that follow use the timer up. -/
theorem shortFrameEndsIncomplete : Obligations.ShortFrameEndsIncomplete := by
  unfold Obligations.ShortFrameEndsIncomplete
  intro s r c bits last gap hc h0 hl hg hT bs
  have hr := (List.getElem?_eq_some_iff.mp hc).1
  obtain ⟨hin, ht⟩ := bitReader_spacedBits_inFrame r last (by omega) h0 hl hg
  have hh := hin.holds
  have hopen : (bitReader s.timeoutTicks last
      (reactAll s.timeoutTicks (spacedBits r bits) c)).rs.bitCount ≠ 0 := by
    intro h
    simpa [h] using hh.bitCount
  have hrun := runEvents_frame_ticked hc bits last gap
  rw [reactAll_gapEvents_times_out r hin.armed hopen (by rw [ht, hT])] at hrun
  exact ⟨_, _, hrun, rfl, rfl, rfl, rfl, rfl, rfl, rfl, rfl, hh.facility, hh.card, hh.clear.1,
    result?_setReader_eq_none hr rfl⟩

end Sys2Proof.Machine
end

section
/-! The lifecycle of a reader (10_state.md R19, 42_frame_timer.md R80): where a bit, a TICK, a RESET
and a NOP take it. -/

namespace Sys2Proof.Machine

theorem lifecycle_eq_idle_iff {rs : ReaderState} :
    lifecycle rs = .idle ↔ rs.bitCount.toNat = 0 := by
  unfold lifecycle
  split_ifs <;> simp_all

theorem lifecycle_eq_openFrame_iff {rs : ReaderState} :
    lifecycle rs = .openFrame ↔ 1 ≤ rs.bitCount.toNat ∧ rs.bitCount.toNat ≤ 25 := by
  unfold lifecycle
  split_ifs <;> simp <;> omega

theorem lifecycle_eq_pastEnd_iff {rs : ReaderState} :
    lifecycle rs = .pastEnd ↔ 26 ≤ rs.bitCount.toNat := by
  unfold lifecycle
  split_ifs <;> simp <;> omega

section
variable {T : Nat} {v : Bool} {c : Slice}

/-- A bit below position 25 moves its reader to the next position (R61 to R64, R67). -/
theorem bitReader_bitCount (h : c.rs.bitCount.toNat ≤ 24) :
    (bitReader T v c).rs.bitCount.toNat = c.rs.bitCount.toNat + 1 := by
  have hb := bumpCount_toNat c.rs.bitCount h
  obtain hp | ⟨hp, hp'⟩ | ⟨hp, hp'⟩ | ⟨hp, hp'⟩ | hp | hp := position_cases c.rs.bitCount
  · rw [bitReader_start hp, hp]; rfl
  · rw [bitReader_facility hp hp']; exact hb
  · rw [bitReader_cardEven hp hp']; exact hb
  · rw [bitReader_cardOdd hp hp']; exact hb
  · omega
  · omega

/-- Rows 1 and 2 of R80: a bit below position 25 leaves its reader Open. -/
theorem bitReader_lifecycle_open (h : c.rs.bitCount.toNat ≤ 24) :
    lifecycle (bitReader T v c).rs = .openFrame ∧ (bitReader T v c).tm = ⟨true, T⟩ ∧
      (bitReader T v c).out.finStrobe = false := by
  refine ⟨lifecycle_eq_openFrame_iff.mpr ?_, bitReader_open v h⟩
  rw [bitReader_bitCount h]
  omega

/-- Row 3 of R80: the bit at position 25 completes the frame. -/
theorem bitReader_lifecycle_completed (h : c.rs.bitCount.toNat = 25) :
    lifecycle (bitReader T v c).rs = .idle ∧ (bitReader T v c).tm = ⟨false, 0⟩ ∧
      (bitReader T v c).out.finStrobe = true ∧
      ((bitReader T v c).out.finCause = .none ∨ (bitReader T v c).out.finCause = .parity) := by
  have hcause := (completion_of_flags T v h).2
  rw [bitReader_trailing h, acceptTrailing_eq] at hcause ⊢
  refine ⟨rfl, rfl, rfl, ?_⟩
  rw [hcause]
  split
  · exact .inr rfl
  · exact .inl rfl

/-- Row 6 of R80: a bit above position 25 is an overrun. -/
theorem bitReader_lifecycle_overrun (h : 26 ≤ c.rs.bitCount.toNat) :
    lifecycle (bitReader T v c).rs = .idle ∧ (bitReader T v c).tm = ⟨false, 0⟩ ∧
      (bitReader T v c).out.finStrobe = true ∧ (bitReader T v c).out.finCause = .overrun := by
  rw [bitReader_overrun h]
  exact ⟨rfl, rfl, rfl, rfl⟩

/-- Row 4 of R80: the last TICK times an Open frame out. -/
theorem tickReader_lifecycle_timed_out (hl : lifecycle c.rs = .openFrame)
    (ha : c.tm.armed = true) (h1 : c.tm.count ≤ 1) :
    lifecycle (tickReader c).rs = .idle ∧ (tickReader c).tm = ⟨false, 0⟩ ∧
      (tickReader c).out.finStrobe = true ∧ (tickReader c).out.finCause = .incomplete := by
  have hb : c.rs.bitCount ≠ 0 := by
    intro h
    simpa [h] using (lifecycle_eq_openFrame_iff.mp hl).1
  rw [tickReader_times_out_eq ha h1 hb]
  exact ⟨rfl, rfl, rfl, rfl⟩

end

/-- Settles O44: one lemma a row of R80, at the slice of the event's reader. -/
theorem lifecycleTransitions : Obligations.LifecycleTransitions := by
  unfold Obligations.LifecycleTransitions
  intro s r c hc
  have hr := (List.getElem?_eq_some_iff.mp hc).1
  refine ⟨fun v => ?bit, ?tick, ?reset, ?nop⟩
  case bit =>
    refine ⟨_, _, exec_ofBit_present v hc, List.getElem?_set_self hr, fun hl => ?_,
      fun _ h24 => ?_, fun _ h25 => ?_, fun hl => ?_⟩
    · exact bitReader_lifecycle_open (by rw [lifecycle_eq_idle_iff.mp hl]; omega)
    · exact bitReader_lifecycle_open h24
    · exact bitReader_lifecycle_completed h25
    · exact bitReader_lifecycle_overrun (lifecycle_eq_pastEnd_iff.mp hl)
  case tick =>
    refine ⟨_, _, exec_tick_present hc, List.getElem?_set_self hr,
      tickReader_lifecycle_timed_out, fun hl ha h2 => ?_, fun hl ha => ?_⟩
    · rw [tickReader_counts ha h2]
      exact ⟨hl, rfl, rfl⟩
    · rw [tickReader_disarmed ha]
      exact ⟨hl, ha, rfl⟩
  case reset =>
    exact ⟨_, Slice.zero, exec_reset s, List.getElem?_replicate_of_lt hr, rfl, rfl, rfl⟩
  case nop =>
    exact ⟨_, _, onReader_present nopReader hc, List.getElem?_set_self hr, rfl, rfl, rfl⟩

end Sys2Proof.Machine
end

section
/-! The event router (43_event_router.md R90 to R97): a step as the run of its decoded events, the
collision that refuses it, and the independence of the readers, along a step and along a run. -/

namespace Sys2Proof.Machine

/-- Settles O23: all that a NOP does to its reader is the default of R90. -/
theorem nopClearsOnlyStrobe : Obligations.NopClearsOnlyStrobe := by
  unfold Obligations.NopClearsOnlyStrobe
  intro s r c hc
  exact onReader_present nopReader hc

theorem exec_collide (r : Nat) (s : State) : exec (.collide r) s = .refused (.collide r) := rfl

/-- Settles O34: the meaning of COLLIDE looks at no state. -/
theorem collideIsRefused : Obligations.CollideIsRefused := by
  unfold Obligations.CollideIsRefused
  intro s r
  exact exec_collide r s

/-! ### Runs of events -/

theorem runEvents_cons_of_next {i : Instr} {s u : State} (h : exec i s = .next u)
    (es : List Instr) : runEvents (i :: es) s = runEvents es u := by
  simp only [runEvents, h]

theorem runEvents_cons_of_refused {i : Instr} {s : State} {why : Refusal}
    (h : exec i s = .refused why) (es : List Instr) :
    runEvents (i :: es) s = .refused why := by
  simp only [runEvents, h]

theorem runEvents_cons_next_iff {i : Instr} {es : List Instr} {s t : State} :
    runEvents (i :: es) s = .next t ↔ ∃ u, exec i s = .next u ∧ runEvents es u = .next t := by
  cases h : exec i s <;> simp [runEvents, h]

@[simp] theorem runEvents_singleton (i : Instr) (s : State) : runEvents [i] s = exec i s := by
  cases h : exec i s <;> simp [runEvents, h]

/-! ### Steps and collisions -/

theorem step_of_events {s : State} {es : List Instr} (hl : s.config.Legal)
    (hd : decodeStep s.slices.length s.input.word = .events es) :
    step s = runEvents es s.advanceInput := by
  simp only [step, if_pos hl, State.decodeInput, hd]

/-- Settles O11: the state the events run on is `State.advanceInput`. -/
theorem stepRunsDecodedEvents : Obligations.StepRunsDecodedEvents := by
  unfold Obligations.StepRunsDecodedEvents
  intro s es hl hd s'
  have hs : step s = runEvents es s' :=
    (step_of_events hl hd).trans (congrArg (runEvents es) (advanceInput_eq s))
  refine ⟨hs, ?_⟩
  rintro i rfl
  rw [hs, runEvents_singleton]

/-- With `rst` high a step always completes (R115, R130). -/
theorem step_completes_of_rst {s : State} (hl : s.config.Legal)
    (hw : s.input.word < 2 ^ (2 * s.slices.length + 2))
    (h1 : s.input.word.testBit (2 * s.slices.length + 1) = true) : ∃ t, step s = .next t := by
  have hd : decodeStep s.slices.length s.input.word = .events [.reset] := by
    rw [decodeStep, if_pos hw, if_pos h1]
  exact ⟨_, by rw [step_of_events hl hd, runEvents_singleton, exec_reset]⟩

/-- With `rst` low a step runs one event for each reader (R90). -/
theorem step_of_rst_low {s : State} (hl : s.config.Legal)
    (hw : s.input.word < 2 ^ (2 * s.slices.length + 2))
    (h0 : s.input.word.testBit (2 * s.slices.length + 1) = false) :
    step s = runEvents ((List.range s.slices.length).map s.eventOf) s.advanceInput :=
  step_of_events hl (by rw [decodeStep, if_pos hw, if_neg (by simp [h0])]; rfl)

theorem eventOf_reader {s : State}
    (h0 : s.input.word.testBit (2 * s.slices.length + 1) = false) (r : Nat) :
    (s.eventOf r).reader? = some r :=
  decodeEvent_ne_reset r _ (by rw [State.codeOf, eventCode, eventBits_bit3, h0])

/-- With `rst` low a reader's event is COLLIDE exactly when both its lines are pulsed (R42). -/
theorem eventOf_eq_collide_iff {s : State}
    (h0 : s.input.word.testBit (2 * s.slices.length + 1) = false) (r : Nat) :
    s.eventOf r = .collide r ↔
      s.input.word.testBit (2 * r + 1) = true ∧ s.input.word.testBit (2 * r) = true := by
  rw [State.eventOf, State.codeOf, eventCode, decodeEvent_eventBits, h0,
    if_neg Bool.false_ne_true, ← Bool.and_eq_true]
  split
  next h => exact iff_of_true rfl h
  next h =>
    refine iff_of_false ?_ h
    unfold Instr.ofBit
    split_ifs <;> simp

/-- A run of the events of readers that exist is refused for a collision as soon as one of them is
COLLIDE (R96). -/
theorem runEvents_map_refused {f : Nat → Instr} (hf : ∀ r, (f r).reader? = some r) (l : List Nat)
    (s : State) (hl : ∀ r ∈ l, r < s.slices.length) (h : ∃ r ∈ l, f r = .collide r) :
    ∃ r ∈ l, f r = .collide r ∧ runEvents (l.map f) s = .refused (.collide r) := by
  induction l generalizing s with
  | nil => simp at h
  | cons q l ih =>
    obtain ⟨hq, hl⟩ := List.forall_mem_cons.mp hl
    rw [List.map_cons]
    by_cases hc : f q = .collide q
    · exact ⟨q, List.mem_cons_self, hc, runEvents_cons_of_refused (hc ▸ exec_collide q s) _⟩
    · obtain ⟨u, hu⟩ := (exec_completes_iff_of_reader (hf q) hc s).mpr hq
      obtain ⟨-, -, -, -, hn⟩ := exec_next_frame hu
      obtain ⟨r, hr, hfr, hrun⟩ := ih u (hn ▸ hl) (by simpa [hc] using h)
      exact ⟨r, List.mem_cons_of_mem q hr, hfr, (runEvents_cons_of_next hu _).trans hrun⟩

/-- Settles O12: with `rst` low the step runs every reader's event, which is COLLIDE exactly where
both lines are pulsed. -/
theorem stepRefusedExactlyOnCollision : Obligations.StepRefusedExactlyOnCollision := by
  unfold Obligations.StepRefusedExactlyOnCollision
  intro s hl hw W n
  cases h1 : W.testBit (2 * n + 1) with
  | true =>
    have hnext := step_completes_of_rst hl hw h1
    exact ⟨iff_of_true hnext (.inl rfl), fun hn => absurd hnext hn⟩
  | false =>
    have hstep := step_of_rst_low hl hw h1
    by_cases hc : ∃ r ∈ List.range n, s.eventOf r = .collide r
    · obtain ⟨r, hr, hcol, hrun⟩ := runEvents_map_refused (eventOf_reader h1) (List.range n)
        s.advanceInput (by simp [n]) hc
      have hrn := List.mem_range.mp hr
      have hboth := (eventOf_eq_collide_iff h1 r).mp hcol
      rw [hstep, hrun]
      refine ⟨iff_of_false (by simp) ?_, fun _ => ⟨r, hrn, hboth.1, hboth.2, rfl⟩⟩
      exact not_or.mpr ⟨Bool.false_ne_true, fun h => h r hrn hboth⟩
    · have hne : ∀ r, r < n → s.eventOf r ≠ .collide r := fun r hr hcol =>
        hc ⟨r, List.mem_range.mpr hr, hcol⟩
      have hnext : ∃ t, step s = .next t := hstep ▸
        runEvents_map_completes (eventOf_reader h1) (List.range n) s.advanceInput
          fun r hr => ⟨by simpa using hr, hne r (List.mem_range.mp hr)⟩
      exact ⟨iff_of_true hnext (.inr fun r hr hboth =>
        hne r hr ((eventOf_eq_collide_iff h1 r).mpr hboth)), fun hn => absurd hnext hn⟩

/-! ### The order of the readers -/

theorem setReader_comm {q r : Nat} (h : q ≠ r) (s : State) (c d : Slice) :
    (s.setReader q c).setReader r d = (s.setReader r d).setReader q c := by
  simp only [State.setReader, List.set_comm _ _ h]

/-- Where an event of a reader answers a next state. -/
theorem exec_next_iff_of_reader {i : Instr} {r : Nat} (hi : i.reader? = some r) {s t : State} :
    exec i s = .next t ↔ i ≠ .collide r ∧
      ∃ c, s.slices[r]? = some c ∧ t = s.setReader r (reactTo s.timeoutTicks i c) := by
  by_cases hc : i = .collide r
  · subst hc
    simp [exec_collide]
  · rw [exec_of_reader hi hc, onReader_next_iff, and_iff_right hc]

/-- Events of two readers commute: each reads and writes its own reader's slice alone (R33, R97). -/
theorem exec_comm {i j : Instr} {q r : Nat} (hi : i.reader? = some q) (hj : j.reader? = some r)
    (hqr : q ≠ r) {s u t : State} (hu : exec i s = .next u) (ht : exec j u = .next t) :
    ∃ u', exec j s = .next u' ∧ exec i u' = .next t := by
  obtain ⟨hic, c, hc, rfl⟩ := (exec_next_iff_of_reader hi).mp hu
  obtain ⟨hjc, d, hd, rfl⟩ := (exec_next_iff_of_reader hj).mp ht
  have hd : s.slices[r]? = some d := by simpa [hqr] using hd
  refine ⟨s.setReader r (reactTo s.timeoutTicks j d),
    (exec_next_iff_of_reader hj).mpr ⟨hjc, d, hd, rfl⟩,
    (exec_next_iff_of_reader hi).mpr ⟨hic, c, by simpa [hqr.symm] using hc, ?_⟩⟩
  simpa using setReader_comm hqr s _ _

/-- Settles O18: by induction on the permutation, whose swaps are of events of two readers. -/
theorem readerOrderDoesNotMatter : Obligations.ReaderOrderDoesNotMatter := by
  unfold Obligations.ReaderOrderDoesNotMatter
  intro s t es es' hp hne hnd h
  induction hp generalizing s t with
  | nil => exact h
  | cons i hp ih =>
    obtain ⟨u, hu, h⟩ := runEvents_cons_next_iff.mp h
    have hnd := hnd.sublist ((List.sublist_cons_self i _).filterMap Instr.reader?)
    exact runEvents_cons_next_iff.mpr ⟨u, hu, ih u t (List.forall_mem_cons.mp hne).2 hnd h⟩
  | swap j i es =>
    obtain ⟨u, hu, h⟩ := runEvents_cons_next_iff.mp h
    obtain ⟨v, hv, h⟩ := runEvents_cons_next_iff.mp h
    obtain ⟨q, hq⟩ := Option.ne_none_iff_exists'.mp
      (mt eq_reset_of_reader?_eq_none (hne i (by simp)))
    obtain ⟨r, hr⟩ := Option.ne_none_iff_exists'.mp
      (mt eq_reset_of_reader?_eq_none (hne j (by simp)))
    have hqr : q ≠ r := by
      rintro rfl
      simp [hq, hr] at hnd
    obtain ⟨u', hu', hv'⟩ := exec_comm hq hr hqr hu hv
    exact runEvents_cons_next_iff.mpr ⟨u', hu', runEvents_cons_next_iff.mpr ⟨v, hv', h⟩⟩
  | trans hp₁ hp₂ ih₁ ih₂ =>
    exact ih₂ s t (fun i hi => hne i (hp₁.mem_iff.mpr hi))
      ((hp₁.filterMap Instr.reader?).nodup_iff.mp hnd) (ih₁ s t hne hnd h)

/-! ### One reader along a run -/

theorem runSteps_succ_next_iff {k : Nat} {s t : State} :
    runSteps (k + 1) s = .next t ↔ ∃ u, step s = .next u ∧ runSteps k u = .next t := by
  cases h : step s <;> simp [runSteps, h]

/-- The events of reader `r` in the next `k` steps. -/
def State.eventsOf (s : State) (r k : Nat) : List Instr :=
  (List.range k).map fun j => decodeEvent r (s.codeAt r j)

/-- The events of a longer run are the event of its first step and those of the steps after it. -/
theorem step_next_eventsOf {s u : State} (h : step s = .next u) (r k : Nat) :
    s.eventsOf r (k + 1) = s.eventOf r :: u.eventsOf r k := by
  simp only [State.eventsOf, List.range_succ_eq_map, List.map_cons, List.map_map]
  congr 1
  exact List.map_congr_left fun j _ =>
    congrArg (decodeEvent r) (step_next_codeAt h r j).symm

/-- One reader's slice after a run: what the reader's own events make of it (R97). -/
theorem runSteps_next_reader {k : Nat} {s t : State} (h : runSteps k s = .next t) {r : Nat}
    {c : Slice} (hc : s.slices[r]? = some c) :
    t.slices[r]? = some (reactAll s.timeoutTicks (s.eventsOf r k) c) := by
  induction k generalizing s c with
  | zero =>
    obtain rfl : s = t := by simpa [runSteps] using h
    exact hc
  | succ k ih =>
    obtain ⟨u, hu, h⟩ := runSteps_succ_next_iff.mp h
    obtain ⟨-, hT, -⟩ := step_next_frame hu
    rw [step_next_eventsOf hu, reactAll_cons, ← hT]
    exact ih h (hT ▸ step_next_reader hu hc)

/-- Settles O19: by induction on the steps of the run. -/
theorem runIsProductOfReaders : Obligations.RunIsProductOfReaders := by
  unfold Obligations.RunIsProductOfReaders
  intro k s t r c h hc
  rw [runSteps_next_reader h hc, reactAll, State.eventsOf, List.foldl_map]

/-- Settles O20: the slice after a run is a function of the reader's slice, timeout and events. -/
theorem otherReadersDoNotInterfere : Obligations.OtherReadersDoNotInterfere := by
  unfold Obligations.OtherReadersDoNotInterfere
  intro k s s' t t' r hT hr hslice hcodes h h'
  have hc : s.slices[r]? = some s.slices[r] := List.getElem?_eq_getElem hr
  have hevents : s.eventsOf r k = s'.eventsOf r k := List.map_congr_left fun j hj =>
    congrArg (decodeEvent r) (hcodes j (List.mem_range.mp hj))
  rw [runSteps_next_reader h hc, runSteps_next_reader h' (hslice ▸ hc), hT, hevents]

end Sys2Proof.Machine
end

section
/-! Finalization and emission (44_finalization.md R101 to R103): when a result is forwarded, what
holds between notifications, and that `cfg_trace` reaches `trace_strobe` alone. -/

namespace Sys2Proof.Machine

/-- Settles O42: `result?` looks at the strobe of the reader's slice, where the block has it. -/
theorem resultForwardedExactlyOnResStrobe : Obligations.ResultForwardedExactlyOnResStrobe := by
  unfold Obligations.ResultForwardedExactlyOnResStrobe
  intro s r x
  unfold State.result? State.reader?
  cases s.slices[r]? with
  | none => simp
  | some c => simp [resStrobe, and_assoc, eq_comm (a := x)]

/-! ### The output register between notifications -/

section
variable {T : Nat} {v : Bool} {c : Slice}

/-- A bit below position 25 writes no field of the output register but `fin_strobe` (R61 to R64). -/
theorem bitReader_out (h : c.rs.bitCount.toNat ≤ 24) :
    (bitReader T v c).out = { c.out with finStrobe := false } := by
  obtain hp | ⟨hp, hp'⟩ | ⟨hp, hp'⟩ | ⟨hp, hp'⟩ | hp | hp := position_cases c.rs.bitCount
  · rw [bitReader_start hp]; rfl
  · rw [bitReader_facility hp hp']; rfl
  · rw [bitReader_cardEven hp hp']; rfl
  · rw [bitReader_cardOdd hp hp']; rfl
  · omega
  · omega

/-- From position 25 on every bit ends in a notification (R65, R66). -/
theorem bitReader_finStrobe_from_25 (h : 25 ≤ c.rs.bitCount.toNat) :
    (bitReader T v c).out.finStrobe = true := by
  obtain hp | hp := h.eq_or_lt
  · exact (bitReader_lifecycle_completed hp.symm).2.2.1
  · exact (bitReader_lifecycle_overrun hp).2.2.1

theorem bitReader_out_of_silent (h : (bitReader T v c).out.finStrobe = false) :
    (bitReader T v c).out = { c.out with finStrobe := false } := by
  by_cases hp : c.rs.bitCount.toNat ≤ 24
  · exact bitReader_out hp
  · rw [bitReader_finStrobe_from_25 (by omega)] at h; cases h

theorem tickReader_out_of_silent (h : (tickReader c).out.finStrobe = false) :
    (tickReader c).out = { c.out with finStrobe := false } := by
  cases ha : c.tm.armed with
  | false => rw [tickReader_disarmed ha]; rfl
  | true =>
    by_cases h2 : 2 ≤ c.tm.count
    · rw [tickReader_counts ha h2]; rfl
    by_cases hb : c.rs.bitCount = 0
    · rw [tickReader_expires_idle ha (by omega) hb]; rfl
    · rw [tickReader_times_out ha (by omega) hb] at h; cases h

end

/-- Settles O39: in a step without reset the reader's event is a NOP, a TICK or a bit, and each of
these holds the output register unless it notifies. -/
theorem outputHoldsBetweenNotifications : Obligations.OutputHoldsBetweenNotifications := by
  unfold Obligations.OutputHoldsBetweenNotifications
  intro s t r c c' h h0 hc hc' hs
  obtain ⟨hi, hcol⟩ := step_next_event h h0 (List.getElem?_eq_some_iff.mp hc).1
  obtain rfl : reactTo s.timeoutTicks (s.eventOf r) c = c' :=
    Option.some.inj ((step_next_reader h hc).symm.trans hc')
  generalize s.eventOf r = i at hi hcol hs ⊢
  obtain rfl | rfl | rfl | rfl | rfl := event_cases_of_reader hi
  · rfl
  · exact tickReader_out_of_silent hs
  · exact bitReader_out_of_silent hs
  · exact bitReader_out_of_silent hs
  · exact absurd rfl hcol

/-! ### The level of `cfg_trace` -/

/-- The step word of the next cycle is 0 after the end of the schedule (assumption 2). -/
theorem advanceInput_word (s : State) :
    s.advanceInput.input.word = (s.schedule.map StepInput.word).headD 0 := by
  rw [advanceInput_eq]
  cases s.schedule <;> rfl

namespace AgreeButTrace
variable {s s' : State}

theorem eventOf_eq (h : AgreeButTrace s s') (r : Nat) : s.eventOf r = s'.eventOf r := by
  rw [State.eventOf, State.codeOf, h.slices, h.word, State.eventOf, State.codeOf]

/-- The step words of the next cycle and of those after it are the same too. -/
theorem advanceInput (h : AgreeButTrace s s') : AgreeButTrace s.advanceInput s'.advanceInput where
  params := by simpa using h.params
  slices := by simpa using h.slices
  word := by rw [advanceInput_word, advanceInput_word, h.schedule]
  schedule := by simp only [advanceInput_eq, List.map_tail, h.schedule]

/-- Whether a step answers depends on parameters, number of readers and step word (R7). -/
theorem step_completes (h : AgreeButTrace s s') {t : State} (ht : step s = .next t) :
    ∃ t', step s' = .next t' := by
  obtain ⟨hl, hw, -⟩ := step_next_eq ht
  have hcond := (stepRefusedExactlyOnCollision s hl hw).1.mp ⟨t, ht⟩
  have hconfig : s.config = s'.config := by
    rw [State.config, h.slices, h.params.1, h.params.2, State.config]
  rw [h.slices, h.word] at hw hcond
  exact (stepRefusedExactlyOnCollision s' (hconfig ▸ hl) hw).1.mpr hcond

/-- One step of two such blocks: the same events on the same slices. -/
theorem step_agrees (h : AgreeButTrace s s') {t : State} (ht : step s = .next t) :
    ∃ t', step s' = .next t' ∧ AgreeButTrace t t' := by
  obtain ⟨t', ht'⟩ := h.step_completes ht
  refine ⟨t', ht', ?_⟩
  obtain ⟨-, -, rfl⟩ := step_next_eq ht
  obtain ⟨-, -, rfl⟩ := step_next_eq ht'
  have ha := h.advanceInput
  refine ⟨ha.params, ?_, ha.word, ha.schedule⟩
  simp only [h.eventOf_eq, h.params.2, h.slices]

theorem runSteps_agrees (h : AgreeButTrace s s') {k : Nat} {t : State}
    (ht : runSteps k s = .next t) : ∃ t', runSteps k s' = .next t' ∧ AgreeButTrace t t' := by
  induction k generalizing s s' with
  | zero =>
    obtain rfl : s = t := by simpa [runSteps] using ht
    exact ⟨s', rfl, h⟩
  | succ k ih =>
    obtain ⟨u, hu, ht⟩ := runSteps_succ_next_iff.mp ht
    obtain ⟨u', hu', hagree⟩ := h.step_agrees hu
    obtain ⟨t', ht', hagree⟩ := ih hagree ht
    exact ⟨t', runSteps_succ_next_iff.mpr ⟨u', hu', ht'⟩, hagree⟩

/-- The bundle takes nothing but `trace_strobe` from the level of `cfg_trace` (R46, R103). -/
theorem bundle?_eq (h : AgreeButTrace s s') (r : Nat) :
    (s.bundle? r).map (fun b => { b with traceStrobe := false }) =
      (s'.bundle? r).map (fun b => { b with traceStrobe := false }) := by
  simp only [State.bundle?, State.reader?, h.slices, Option.map_map]
  rfl

end AgreeButTrace

/-- Settles O21: by induction on the steps of the run; equal slices give equal bundles but for
`trace_strobe`. -/
theorem traceToggleChangesOnlyTraceStrobe : Obligations.TraceToggleChangesOnlyTraceStrobe := by
  unfold Obligations.TraceToggleChangesOnlyTraceStrobe
  intro k s s' t h ht
  obtain ⟨t', ht', hagree⟩ := h.runSteps_agrees ht
  exact ⟨t', ht', hagree, hagree.bundle?_eq⟩

end Sys2Proof.Machine
end

section
/-! Frames and notifications (44_finalization.md R104, R106). In each event but RESET a frame opened
or Open before it is either Open after it or has just been notified; summed along a run, this is the
account of R106. -/

namespace Sys2Proof.Machine

/-! ### One event on one slice -/

section
variable {T : Nat} {v : Bool} {c : Slice} {i : Instr} {r : Nat}

/-- R11: with the invariant no reader is past the end of a frame. -/
theorem Slice.Inv.idle_or_open (h : c.Inv T) :
    lifecycle c.rs = .idle ∨ lifecycle c.rs = .openFrame := by
  have hle := h.count_le
  rw [lifecycle_eq_idle_iff, lifecycle_eq_openFrame_iff]
  omega

/-- R23.2: no timer is pending on an Idle reader. -/
theorem Slice.Inv.disarmed_of_idle (h : c.Inv T) (hl : lifecycle c.rs = .idle) :
    c.tm.armed = false := by
  rw [Bool.eq_false_iff, ne_eq, h.armed_iff, lifecycle_eq_idle_iff.mp hl]
  omega

/-- A frame Open before a TICK is Open after it, or the TICK has timed it out (R84, R85). -/
theorem tickReader_account (h : c.Inv T) :
    (lifecycle c.rs).isOpen.toNat =
      (tickReader c).out.finStrobe.toNat + (lifecycle (tickReader c).rs).isOpen.toNat := by
  by_cases hlast : c.tm.armed = true ∧ c.tm.count ≤ 1
  · obtain ⟨ha, h1⟩ := hlast
    have hl : lifecycle c.rs = .openFrame :=
      lifecycle_eq_openFrame_iff.mpr ⟨h.armed_iff.mp ha, h.count_le⟩
    obtain ⟨hidle, -, hstrobe, -⟩ := tickReader_lifecycle_timed_out hl ha h1
    rw [hl, hidle, hstrobe]
    rfl
  · have hstrobe : (tickReader c).out.finStrobe = false :=
      Bool.eq_false_iff.mpr fun hs => hlast (timer_of_tickReader_finStrobe hs)
    have hrs : (tickReader c).rs = c.rs :=
      tickReader_rs fun ha => Nat.lt_of_not_le fun h1 => hlast ⟨ha, h1⟩
    rw [hstrobe, hrs, Bool.toNat_false, Nat.zero_add]

/-- A bit always falls in a frame, the one it opens or the one Open before it. That frame is Open
after the bit below position 25 and completed by it at position 25 (R61 to R65). -/
theorem bitReader_account (h : c.Inv T) :
    (lifecycle c.rs).isIdle.toNat + (lifecycle c.rs).isOpen.toNat =
      (bitReader T v c).out.finStrobe.toNat + (lifecycle (bitReader T v c).rs).isOpen.toNat := by
  have hbefore : (lifecycle c.rs).isIdle.toNat + (lifecycle c.rs).isOpen.toNat = 1 := by
    obtain hl | hl := h.idle_or_open <;> rw [hl] <;> rfl
  rw [hbefore]
  obtain hp | hp := h.count_le.lt_or_eq
  · obtain ⟨hopen, -, hstrobe⟩ :=
      bitReader_lifecycle_open (T := T) (v := v) (Nat.le_of_lt_succ hp)
    rw [hopen, hstrobe]
    rfl
  · obtain ⟨hidle, -, hstrobe, -⟩ := bitReader_lifecycle_completed (T := T) (v := v) hp
    rw [hidle, hstrobe]
    rfl

/-- The account of one event of a reader: opened and Open before, notified and Open after. -/
theorem reactTo_account (hi : i.reader? = some r) (hcol : i ≠ .collide r) (h : c.Inv T) :
    ((lifecycle c.rs).isIdle && i.isBit).toNat + (lifecycle c.rs).isOpen.toNat =
      (reactTo T i c).out.finStrobe.toNat + (lifecycle (reactTo T i c).rs).isOpen.toNat := by
  obtain rfl | rfl | rfl | rfl | rfl := event_cases_of_reader hi
  · simp [Instr.isBit, reactTo, nopReader]
  · simpa [Instr.isBit, reactTo] using tickReader_account h
  · simpa [Instr.isBit, reactTo] using bitReader_account h
  · simpa [Instr.isBit, reactTo] using bitReader_account h
  · exact absurd rfl hcol

/-- No event of an Idle reader makes a notification: a bit opens a frame, and no timer is pending
for a TICK to use up (R104). -/
theorem reactTo_silent_of_idle (hi : i = .reset ∨ i.reader? = some r) (hcol : i ≠ .collide r)
    (h : c.Inv T) (hl : lifecycle c.rs = .idle) : (reactTo T i c).out.finStrobe = false := by
  have hbit : ∀ v, (bitReader T v c).out.finStrobe = false := fun v =>
    (bitReader_open v (by rw [lifecycle_eq_idle_iff.mp hl]; omega)).2
  obtain rfl | hi := hi
  · rfl
  obtain rfl | rfl | rfl | rfl | rfl := event_cases_of_reader hi
  · rfl
  · rw [reactTo, tickReader_disarmed (h.disarmed_of_idle hl)]; rfl
  · exact hbit false
  · exact hbit true
  · exact absurd rfl hcol

end

/-! ### One reader of a block -/

section
variable {s t : State} {r : Nat} {c : Slice}

theorem isOpen_of_present (hc : s.slices[r]? = some c) :
    s.isOpen r = (lifecycle c.rs).isOpen := by
  simp only [State.isOpen, State.reader?, hc]

theorem notifies_of_present (hc : s.slices[r]? = some c) : s.notifies r = c.out.finStrobe := by
  simp only [State.notifies, State.reader?, hc]

theorem opensFrame_of_present (hc : s.slices[r]? = some c) :
    s.opensFrame r = ((lifecycle c.rs).isIdle && (s.eventOf r).isBit) := by
  simp only [State.opensFrame, State.reader?, hc]

/-- A reader the block does not have opens no frame, has none Open and notifies nothing (R31). -/
theorem quiet_of_absent (hc : s.slices[r]? = none) :
    s.opensFrame r = false ∧ s.isOpen r = false ∧ s.notifies r = false := by
  simp only [State.opensFrame, State.isOpen, State.notifies, State.reader?, hc, and_self]

theorem State.Inv.slice (hs : s.Inv) (hc : s.slices[r]? = some c) : c.Inv s.timeoutTicks :=
  hs.slices_inv c (List.mem_of_getElem? hc)

/-- A reader that the block has not got before a step it has not got after it. -/
theorem step_next_absent (h : step s = .next t) (hc : s.slices[r]? = none) :
    t.slices[r]? = none := by
  obtain ⟨-, -, hn, -⟩ := step_next_frame h
  rw [List.getElem?_eq_none_iff] at hc ⊢
  omega

/-- In a step that answers a next state no reader's event is COLLIDE (R96). -/
theorem step_next_not_collide (h : step s = .next t) (hr : r < s.slices.length) :
    s.eventOf r ≠ .collide r := by
  obtain ⟨u, hu⟩ := step_next_own_event_completes h hr
  intro hcol
  exact exec_collide_ne_next r s u (hcol ▸ hu)

/-- The account of one step without reset. -/
theorem step_account (hs : s.Inv) (h : step s = .next t) (h0 : s.rstAt 0 = false) (r : Nat) :
    (s.opensFrame r).toNat + (s.isOpen r).toNat = (t.notifies r).toNat + (t.isOpen r).toNat := by
  cases hc : s.slices[r]? with
  | none =>
    obtain ⟨hopens, hopen, -⟩ := quiet_of_absent hc
    obtain ⟨-, hopen', hnotifies⟩ := quiet_of_absent (step_next_absent h hc)
    rw [hopens, hopen, hopen', hnotifies]
  | some c =>
    obtain ⟨hi, hcol⟩ := step_next_event h h0 (List.getElem?_eq_some_iff.mp hc).1
    have ht := step_next_reader h hc
    rw [opensFrame_of_present hc, isOpen_of_present hc, notifies_of_present ht,
      isOpen_of_present ht]
    exact reactTo_account hi hcol (hs.slice hc)

/-- After a step `rst` is high when it was to be high one cycle later before it. -/
theorem step_next_rstAt (h : step s = .next t) (k : Nat) : t.rstAt k = s.rstAt (k + 1) := by
  obtain ⟨-, -, hn, hi, hs⟩ := step_next_frame h
  simp only [State.rstAt, hn, State.inputAt, inputAt_congr k hi hs]

theorem framesOpened_succ (h : step s = .next t) (r k : Nat) :
    framesOpened r (k + 1) s = (s.opensFrame r).toNat + framesOpened r k t := by
  simp only [framesOpened, h]

theorem notificationsMade_succ (h : step s = .next t) (r k : Nat) :
    notificationsMade r (k + 1) s = (t.notifies r).toNat + notificationsMade r k t := by
  simp only [notificationsMade, h]

end

/-- Settles O40: a reader that shows a notification is Idle, and no event of an Idle reader
notifies. -/
theorem notificationsAreTwoStepsApart : Obligations.NotificationsAreTwoStepsApart := by
  unfold Obligations.NotificationsAreTwoStepsApart
  intro s t r hs h hn
  cases hc : s.slices[r]? with
  | none => exact (quiet_of_absent (step_next_absent h hc)).2.2
  | some c =>
    rw [notifies_of_present hc] at hn
    rw [notifies_of_present (step_next_reader h hc)]
    have hinv := hs.slice hc
    exact reactTo_silent_of_idle (decodeEvent_reader r (s.codeOf r))
      (step_next_not_collide h (List.getElem?_eq_some_iff.mp hc).1) hinv
      (lifecycle_eq_idle_iff.mpr (hinv.strobe_idle hn))

/-- Settles O48: by induction on the steps of the run, adding up the account of each step. -/
theorem oneNotificationPerFrame : Obligations.OneNotificationPerFrame := by
  unfold Obligations.OneNotificationPerFrame
  intro k s t r hs h hrst
  induction k generalizing s with
  | zero =>
    obtain rfl : s = t := by simpa [runSteps] using h
    rfl
  | succ k ih =>
    obtain ⟨u, hu, h⟩ := runSteps_succ_next_iff.mp h
    have hstep := step_account hs hu (hrst 0 k.succ_pos) r
    have hrest := ih u (step_inv hs hu) h fun j hj =>
      (step_next_rstAt hu j).trans (hrst (j + 1) (Nat.succ_lt_succ hj))
    rw [framesOpened_succ hu, notificationsMade_succ hu]
    omega

end Sys2Proof.Machine
end

section
/-! Reset before everything else in a step word (70_reset_and_hazards.md R130, 60_exceptions.md R115),
and what a single bit error does to the parities of a frame (R139, 41_parity_validator.md R75). -/

namespace Sys2Proof.Machine

/-- With `rst` high a step is RESET alone, on the state with the next cycle's inputs (R90, R115). -/
theorem step_of_rst_high {s : State} (hl : s.config.Legal)
    (hw : s.input.word < 2 ^ (2 * s.slices.length + 2))
    (h1 : s.input.word.testBit (2 * s.slices.length + 1) = true) :
    step s = exec .reset s.advanceInput := by
  have hd : decodeStep s.slices.length s.input.word = .events [.reset] := by
    rw [decodeStep, if_pos hw, if_pos h1]
  rw [step_of_events hl hd, runEvents_singleton]

/-- Settles O15: the step is RESET, which writes every slice and no other field. -/
theorem resetTakesPrecedenceInStep : Obligations.ResetTakesPrecedenceInStep := by
  unfold Obligations.ResetTakesPrecedenceInStep
  intro s hl hw h1
  rw [step_of_rst_high hl hw h1, exec_reset, advanceInput_eq]

/-- Flipping a bit of a list changes the parity of its ones; a place past its end is no bit of it. -/
theorem odd_count_modify_not (bs : List Bool) (p : Nat) :
    ((bs.modify p not).count true % 2 == 1) =
      ((bs.count true % 2 == 1) ^^ decide (p < bs.length)) := by
  rw [← foldr_xor_eq_odd, ← foldr_xor_eq_odd]
  induction bs generalizing p with
  | nil => simp
  | cons b bs ih =>
    cases p with
    | zero => simp [List.modify_zero_cons]
    | succ p => simp [List.modify_succ_cons, ih]

variable (w : FrameWord) {p : Nat}

/-- The frame with the bit at position `p` flipped, in order of arrival (R44). -/
theorem frameBitsOf_flip (hp : p < 26) :
    frameBitsOf (w ^^^ BitVec.twoPow 26 (25 - p)) = (frameBitsOf w).modify p not := by
  apply List.ext_getElem
  · simp [frameBitsOf_length]
  · intro q hq _
    rw [frameBitsOf_length] at hq
    have hpos : 25 - p = 25 - q ↔ p = q := by omega
    have hlt : 25 - p < 26 := by omega
    simp only [List.getElem_modify, frameBitsOf, List.getElem_map, List.getElem_range, frameBit,
      BitVec.getLsbD_xor, BitVec.getLsbD_twoPow, hpos, hlt]
    by_cases h : p = q <;> simp [h]

/-- An error changes the even parity when it is at a position of its domain, 0 to 12. -/
theorem evenParityHolds_flip (hp : p < 26) :
    evenParityHolds (w ^^^ BitVec.twoPow 26 (25 - p)) = (evenParityHolds w ^^ decide (p < 13)) := by
  have heven (n : Nat) : (n % 2 == 0) = !(n % 2 == 1) := by
    cases Nat.mod_two_eq_zero_or_one n with | _ h => simp [h]
  have hlen : ((frameBitsOf w).take 13).length = 13 := by simp [frameBitsOf_length]
  simp only [evenParityHolds, heven, frameBitsOf_flip w hp, List.take_modify,
    odd_count_modify_not, hlen, Bool.not_xor]

/-- An error changes the odd parity when it is at a position of its domain, 13 to 25. -/
theorem oddParityHolds_flip (hp : p < 26) :
    oddParityHolds (w ^^^ BitVec.twoPow 26 (25 - p)) = (oddParityHolds w ^^ decide (13 ≤ p)) := by
  rw [oddParityHolds, oddParityHolds, frameBitsOf_flip w hp]
  by_cases h : 13 ≤ p
  · have hin : p - 13 < ((frameBitsOf w).drop 13).length := by
      rw [List.length_drop, frameBitsOf_length]; omega
    rw [List.drop_modify_of_ge not p 13 _ h, odd_count_modify_not, decide_eq_true hin,
      decide_eq_true h]
  · rw [List.drop_modify_of_lt not p 13 _ (Nat.not_le.mp h), decide_eq_false h, Bool.xor_false]

/-- Settles O10: each position is in the domain of exactly one of the two parities. -/
theorem singleBitErrorBreaksParity : Obligations.SingleBitErrorBreaksParity := by
  unfold Obligations.SingleBitErrorBreaksParity
  intro w p hp heven hodd
  rw [evenParityHolds_flip w hp, oddParityHolds_flip w hp, heven, hodd]
  simp [← decide_not]

end Sys2Proof.Machine
end

section
/-! A step word with a bit above the ports of the block (30_encoding.md R41, assumption 6). -/

namespace Sys2Proof.Machine

/-- A word that the decoder rejects is refused for the decoder's reason. -/
theorem step_of_rejected {s : State} (hl : s.config.Legal)
    (hd : decodeStep s.slices.length s.input.word = .rejected .wordTooWide) :
    step s = .refused .wordTooWide := by
  simp only [step, if_pos hl, State.decodeInput, hd]

/-- Settles O14: the decoder rejects exactly the words wider than the ports. -/
theorem wordWiderThanPortsRefused : Obligations.WordWiderThanPortsRefused := by
  unfold Obligations.WordWiderThanPortsRefused
  intro s hl hw
  exact step_of_rejected hl (decodeStep_eq_rejected_iff.mpr hw)

end Sys2Proof.Machine
end
